-- ==== Sys2Proof/Word.lean ====
section
/-! DEFINITION. The word types of the machine (00_scope.md R4 to R6; 30_encoding.md R81). -/

namespace Sys2Proof

/-- A memory byte, a general register, a timer: 8 bits (R4). -/
abbrev Byte := BitVec 8

/-- An instruction word, PC, I, a stack entry: 16 bits (R4, R80). -/
abbrev Word := BitVec 16

/-- A 12-bit address field NNN (R81). -/
abbrev Addr12 := BitVec 12

/-- The name of a general register, V0 to VF (R20). -/
abbrev Reg := Fin 16

/-- The index of a key, 0x0 to 0xF (R273). -/
abbrev Key := Fin 16

/-- VF, the register that is also the flag (R21). -/
abbrev Reg.vf : Reg := 15

end Sys2Proof
end

