-- ==== Sys2Proof/Syntax.lean ====
section
/-! DEFINITION. The instructions, one constructor for each row of spec/opcode_table.json (30_encoding.md R84). -/

namespace Sys2Proof

/-- The 34 instructions of 30_encoding.md R84, in the order of its map. `x` and `y` are the register fields X and Y, `nn`
the byte NN, `nnn` the 12-bit address NNN, `n` the row count N. -/
inductive Instr where
  /-- 00E0 `CLS` (R110). -/
  | cls
  /-- 00EE `RET` (R130). -/
  | ret
  /-- 1NNN `JP addr` (R131). -/
  | jp (nnn : Addr12)
  /-- 2NNN `CALL addr` (R132). -/
  | call (nnn : Addr12)
  /-- 3XNN `SE Vx, byte` (R133). -/
  | seImm (x : Reg) (nn : Byte)
  /-- 4XNN `SNE Vx, byte` (R134). -/
  | sneImm (x : Reg) (nn : Byte)
  /-- 5XY0 `SE Vx, Vy` (R135). -/
  | seReg (x y : Reg)
  /-- 6XNN `LD Vx, byte` (R160). -/
  | ldImm (x : Reg) (nn : Byte)
  /-- 7XNN `ADD Vx, byte` (R161). -/
  | addImm (x : Reg) (nn : Byte)
  /-- 8XY0 `LD Vx, Vy` (R162). -/
  | ldReg (x y : Reg)
  /-- 8XY1 `OR Vx, Vy` (R163). -/
  | orReg (x y : Reg)
  /-- 8XY2 `AND Vx, Vy` (R164). -/
  | andReg (x y : Reg)
  /-- 8XY3 `XOR Vx, Vy` (R165). -/
  | xorReg (x y : Reg)
  /-- 8XY4 `ADD Vx, Vy` (R166). -/
  | addReg (x y : Reg)
  /-- 8XY5 `SUB Vx, Vy` (R167). -/
  | subReg (x y : Reg)
  /-- 8XY6 `SHR Vx, Vy` (R168). `y` is carried and ignored (R88; log 8). -/
  | shrReg (x y : Reg)
  /-- 8XY7 `SUBN Vx, Vy` (R169). -/
  | subnReg (x y : Reg)
  /-- 8XYE `SHL Vx, Vy` (R170). `y` is carried and ignored (R88; log 8). -/
  | shlReg (x y : Reg)
  /-- 9XY0 `SNE Vx, Vy` (R136). -/
  | sneReg (x y : Reg)
  /-- ANNN `LD I, addr` (R200). -/
  | ldI (nnn : Addr12)
  /-- BNNN `JP V0, addr` (R137). -/
  | jpV0 (nnn : Addr12)
  /-- CXNN `RND Vx, byte` (R171). -/
  | rnd (x : Reg) (nn : Byte)
  /-- DXYN `DRW Vx, Vy, nibble` (R111); `n` is a count of rows. -/
  | drw (x y : Reg) (n : Nat)
  /-- EX9E `SKP Vx` (R230). -/
  | skp (x : Reg)
  /-- EXA1 `SKNP Vx` (R231). -/
  | sknp (x : Reg)
  /-- FX07 `LD Vx, DT` (R233). -/
  | ldVxDt (x : Reg)
  /-- FX0A `LD Vx, K` (R236). -/
  | ldVxK (x : Reg)
  /-- FX15 `LD DT, Vx` (R234). -/
  | ldDt (x : Reg)
  /-- FX18 `LD ST, Vx` (R235). -/
  | ldSt (x : Reg)
  /-- FX1E `ADD I, Vx` (R201). -/
  | addI (x : Reg)
  /-- FX29 `LD F, Vx` (R202). -/
  | ldF (x : Reg)
  /-- FX33 `LD B, Vx` (R203). -/
  | ldB (x : Reg)
  /-- FX55 `LD [I], Vx` (R204). -/
  | ldStore (x : Reg)
  /-- FX65 `LD Vx, [I]` (R205). -/
  | ldLoad (x : Reg)
  deriving DecidableEq, Repr

end Sys2Proof
end

