-- ==== Sys2Proof/Decode.lean ====
section
/-! DEFINITION. The decoder, the encoder and the opcode map of 30_encoding.md (R80 to R90), all three written from the
spec's encodings: the decoder as the 16-way switch on `op` with nested switches, the encoder nibble by nibble, and the
map as the list of masks and matches of R84. -/

namespace Sys2Proof

/-- The six fields of an instruction word, all extracted at once for every word (R81). -/
structure Fields where
  op : BitVec 4
  x : Reg
  y : Reg
  n : BitVec 4
  nn : Byte
  nnn : Addr12
  deriving DecidableEq, Repr

/-- `w[hi:lo]` for each field of R81. -/
def fields (w : Word) : Fields where
  op := w.extractLsb' 12 4
  x := (w.extractLsb' 8 4).toFin
  y := (w.extractLsb' 4 4).toFin
  n := w.extractLsb' 0 4
  nn := w.extractLsb' 0 8
  nnn := w.extractLsb' 0 12

/-- The op 0x0 group: the two whole words 00E0 and 00EE (R84); every other word of the group is unknown (R87). -/
def decodeOp0 (f : Fields) : Option Instr :=
  match f.nnn.toNat with
  | 0x0E0 => some .cls
  | 0x0EE => some .ret
  | _ => none

/-- The op 0x8 group, selected by its low nibble (R84, R87). -/
def decodeOp8 (f : Fields) : Option Instr :=
  match f.n.toNat with
  | 0x0 => some (.ldReg f.x f.y)
  | 0x1 => some (.orReg f.x f.y)
  | 0x2 => some (.andReg f.x f.y)
  | 0x3 => some (.xorReg f.x f.y)
  | 0x4 => some (.addReg f.x f.y)
  | 0x5 => some (.subReg f.x f.y)
  | 0x6 => some (.shrReg f.x f.y)
  | 0x7 => some (.subnReg f.x f.y)
  | 0xE => some (.shlReg f.x f.y)
  | _ => none

/-- The op 0xE group, selected by its low byte (R84, R87). -/
def decodeOpE (f : Fields) : Option Instr :=
  match f.nn.toNat with
  | 0x9E => some (.skp f.x)
  | 0xA1 => some (.sknp f.x)
  | _ => none

/-- The op 0xF group, selected by its low byte (R84, R87). -/
def decodeOpF (f : Fields) : Option Instr :=
  match f.nn.toNat with
  | 0x07 => some (.ldVxDt f.x)
  | 0x0A => some (.ldVxK f.x)
  | 0x15 => some (.ldDt f.x)
  | 0x18 => some (.ldSt f.x)
  | 0x1E => some (.addI f.x)
  | 0x29 => some (.ldF f.x)
  | 0x33 => some (.ldB f.x)
  | 0x55 => some (.ldStore f.x)
  | 0x65 => some (.ldLoad f.x)
  | _ => none

/-- Dispatch on `op`, with every fixed nibble checked (R84, R88). -/
def decodeFields (f : Fields) : Option Instr :=
  match f.op.toNat with
  | 0x0 => decodeOp0 f
  | 0x1 => some (.jp f.nnn)
  | 0x2 => some (.call f.nnn)
  | 0x3 => some (.seImm f.x f.nn)
  | 0x4 => some (.sneImm f.x f.nn)
  | 0x5 => if f.n = 0 then some (.seReg f.x f.y) else none
  | 0x6 => some (.ldImm f.x f.nn)
  | 0x7 => some (.addImm f.x f.nn)
  | 0x8 => decodeOp8 f
  | 0x9 => if f.n = 0 then some (.sneReg f.x f.y) else none
  | 0xA => some (.ldI f.nnn)
  | 0xB => some (.jpV0 f.nnn)
  | 0xC => some (.rnd f.x f.nn)
  | 0xD => some (.drw f.x f.y f.n.toNat)
  | 0xE => decodeOpE f
  | 0xF => decodeOpF f
  | _ => none

/-- The decoder: a pure function of the word (R81). `none` is an unknown opcode (R87). -/
def decodeWord (w : Word) : Option Instr := decodeFields (fields w)

/-- The word of two bytes, high byte first (R56, R57). -/
def wordOfBytes (hi lo : Byte) : Word := BitVec.ofNat 16 (hi.toNat * 256 + lo.toNat)

/-- The byte at the lower address: bits 15 to 8 of the word (R57). -/
def highByte (w : Word) : Byte := w.extractLsb' 8 8

/-- The byte at the higher address: bits 7 to 0 of the word (R57). -/
def lowByte (w : Word) : Byte := w.extractLsb' 0 8

/-- Why bytes are not an instruction. -/
inductive DecodeError where
  /-- Fewer than the 2 bytes every instruction has (R80). -/
  | truncated
  /-- The word matches no row of the opcode map (R87). -/
  | unknownOpcode (w : Word)
  deriving DecidableEq, Repr

/-- The decoder on bytes as memory holds them: the instruction and the bytes after it, or a named error. -/
def decode : List Byte → Except DecodeError (Instr × List Byte)
  | hi :: lo :: rest =>
    match decodeWord (wordOfBytes hi lo) with
    | some i => .ok (i, rest)
    | none => .error (.unknownOpcode (wordOfBytes hi lo))
  | [_] => .error .truncated
  | [] => .error .truncated

/-- The word with the nibbles `op`, `X`, `Y`, `N`, most significant first (R5, R81). -/
def nibbles (op x y n : Nat) : Word := BitVec.ofNat 16 (op * 4096 + x * 256 + y * 16 + n)

/-- The word with the major opcode `op`, the nibble `X` and the byte `NN` (R81, R83 `REG_IMM` and `REG`). -/
def regByte (op x nn : Nat) : Word := BitVec.ofNat 16 (op * 4096 + x * 256 + nn)

/-- The word with the major opcode `op` and the address `NNN` (R81, R83 `ADDR`). -/
def opAddr (op nnn : Nat) : Word := BitVec.ofNat 16 (op * 4096 + nnn)

/-- The encoder: the word of an instruction, by the pattern column of R84. -/
def encode : Instr → Word
  | .cls => 0x00E0
  | .ret => 0x00EE
  | .jp nnn => opAddr 0x1 nnn.toNat
  | .call nnn => opAddr 0x2 nnn.toNat
  | .seImm x nn => regByte 0x3 x nn.toNat
  | .sneImm x nn => regByte 0x4 x nn.toNat
  | .seReg x y => nibbles 0x5 x y 0x0
  | .ldImm x nn => regByte 0x6 x nn.toNat
  | .addImm x nn => regByte 0x7 x nn.toNat
  | .ldReg x y => nibbles 0x8 x y 0x0
  | .orReg x y => nibbles 0x8 x y 0x1
  | .andReg x y => nibbles 0x8 x y 0x2
  | .xorReg x y => nibbles 0x8 x y 0x3
  | .addReg x y => nibbles 0x8 x y 0x4
  | .subReg x y => nibbles 0x8 x y 0x5
  | .shrReg x y => nibbles 0x8 x y 0x6
  | .subnReg x y => nibbles 0x8 x y 0x7
  | .shlReg x y => nibbles 0x8 x y 0xE
  | .sneReg x y => nibbles 0x9 x y 0x0
  | .ldI nnn => opAddr 0xA nnn.toNat
  | .jpV0 nnn => opAddr 0xB nnn.toNat
  | .rnd x nn => regByte 0xC x nn.toNat
  | .drw x y n => nibbles 0xD x y (n % 16)
  | .skp x => regByte 0xE x 0x9E
  | .sknp x => regByte 0xE x 0xA1
  | .ldVxDt x => regByte 0xF x 0x07
  | .ldVxK x => regByte 0xF x 0x0A
  | .ldDt x => regByte 0xF x 0x15
  | .ldSt x => regByte 0xF x 0x18
  | .addI x => regByte 0xF x 0x1E
  | .ldF x => regByte 0xF x 0x29
  | .ldB x => regByte 0xF x 0x33
  | .ldStore x => regByte 0xF x 0x55
  | .ldLoad x => regByte 0xF x 0x65

/-- The bytes of an instruction as memory holds them (R57). -/
def encodeBytes (i : Instr) : List Byte := [highByte (encode i), lowByte (encode i)]

/-- One row of the opcode map: a word is that instruction when `(w AND mask) == pattern` (R84, R85). -/
structure OpcodeRow where
  mask : Word
  pattern : Word
  build : Fields → Instr

/-- The word matches the row (R85). -/
def OpcodeRow.accepts (r : OpcodeRow) (w : Word) : Bool := w &&& r.mask == r.pattern

/-- The opcode map of R84, row by row: its first half. -/
def opcodeMapLow : List OpcodeRow := [
  ⟨0xFFFF, 0x00E0, fun _ => .cls⟩, ⟨0xFFFF, 0x00EE, fun _ => .ret⟩,
  ⟨0xF000, 0x1000, fun f => .jp f.nnn⟩, ⟨0xF000, 0x2000, fun f => .call f.nnn⟩,
  ⟨0xF000, 0x3000, fun f => .seImm f.x f.nn⟩, ⟨0xF000, 0x4000, fun f => .sneImm f.x f.nn⟩,
  ⟨0xF00F, 0x5000, fun f => .seReg f.x f.y⟩, ⟨0xF000, 0x6000, fun f => .ldImm f.x f.nn⟩,
  ⟨0xF000, 0x7000, fun f => .addImm f.x f.nn⟩, ⟨0xF00F, 0x8000, fun f => .ldReg f.x f.y⟩,
  ⟨0xF00F, 0x8001, fun f => .orReg f.x f.y⟩, ⟨0xF00F, 0x8002, fun f => .andReg f.x f.y⟩,
  ⟨0xF00F, 0x8003, fun f => .xorReg f.x f.y⟩, ⟨0xF00F, 0x8004, fun f => .addReg f.x f.y⟩,
  ⟨0xF00F, 0x8005, fun f => .subReg f.x f.y⟩, ⟨0xF00F, 0x8006, fun f => .shrReg f.x f.y⟩,
  ⟨0xF00F, 0x8007, fun f => .subnReg f.x f.y⟩]

/-- The opcode map of R84, row by row: its second half. -/
def opcodeMapHigh : List OpcodeRow := [
  ⟨0xF00F, 0x800E, fun f => .shlReg f.x f.y⟩, ⟨0xF00F, 0x9000, fun f => .sneReg f.x f.y⟩,
  ⟨0xF000, 0xA000, fun f => .ldI f.nnn⟩, ⟨0xF000, 0xB000, fun f => .jpV0 f.nnn⟩,
  ⟨0xF000, 0xC000, fun f => .rnd f.x f.nn⟩, ⟨0xF000, 0xD000, fun f => .drw f.x f.y f.n.toNat⟩,
  ⟨0xF0FF, 0xE09E, fun f => .skp f.x⟩, ⟨0xF0FF, 0xE0A1, fun f => .sknp f.x⟩,
  ⟨0xF0FF, 0xF007, fun f => .ldVxDt f.x⟩, ⟨0xF0FF, 0xF00A, fun f => .ldVxK f.x⟩,
  ⟨0xF0FF, 0xF015, fun f => .ldDt f.x⟩, ⟨0xF0FF, 0xF018, fun f => .ldSt f.x⟩,
  ⟨0xF0FF, 0xF01E, fun f => .addI f.x⟩, ⟨0xF0FF, 0xF029, fun f => .ldF f.x⟩,
  ⟨0xF0FF, 0xF033, fun f => .ldB f.x⟩, ⟨0xF0FF, 0xF055, fun f => .ldStore f.x⟩,
  ⟨0xF0FF, 0xF065, fun f => .ldLoad f.x⟩]

/-- The opcode map of R84: 34 rows. -/
def opcodeMap : List OpcodeRow := opcodeMapLow ++ opcodeMapHigh

/-- Decoding as R85 words it: the row of R84 whose `(w AND mask) == match`, with the word's fields. -/
def lookupWord (w : Word) : Option Instr :=
  (opcodeMap.find? (fun r => r.accepts w)).map (fun r => r.build (fields w))

/-- The instruction the decoder reads from the table word `w` of `nbits` bits: one 16-bit word, laid out high byte
first as memory holds it. -/
def decodeTableWord (nbits w : Nat) : Option Instr :=
  let word : Word := BitVec.ofNat 16 (w % 2 ^ nbits)
  match decode [highByte word, lowByte word] with
  | .ok (i, _) => some i
  | .error _ => none

end Sys2Proof
end

