-- ==== Sys2Proof/Config.lean ====
section
/-! DEFINITION. What is fixed for the machine: the parameters of 00_scope.md R4, and the one free value of the
spec, the answers of `Random()` (42_alu.md R171). -/

namespace Sys2Proof.Config

/-- `MEM_SIZE`, the bytes of memory (R4). -/
@[simp] abbrev memSize : Nat := 4096

/-- `FONT_BASE`, where `load_font` writes (R4, R52). -/
@[simp] abbrev fontBase : Nat := 0x000

/-- `FONT_SIZE`, the bytes of the font table (R4, R52). -/
@[simp] abbrev fontSize : Nat := 80

/-- `GLYPH_BYTES`, the bytes of one glyph (R4, R202). -/
@[simp] abbrev glyphBytes : Nat := 5

/-- `ROM_BASE`, where `load_rom` writes, and the entry point (R4, R301). -/
@[simp] abbrev romBase : Nat := 0x200

/-- `ROM_MAX`, the longest ROM image (R4, R303). -/
@[simp] abbrev romMax : Nat := memSize - romBase

/-- `STACK_DEPTH`, the return addresses the stack holds (R4, R27). -/
@[simp] abbrev stackDepth : Nat := 16

/-- `W`, the columns of the display (R4, R29). -/
@[simp] abbrev width : Nat := 64

/-- `H`, the rows of the display (R4, R29). -/
@[simp] abbrev height : Nat := 32

/-- `NKEYS`, the keys of the keypad (R4, R273). -/
@[simp] abbrev nKeys : Nat := 16

/-- The answer of the core's random source to the n-th draw. It has no body: any value 0..255 at every draw, with no
relation between draws (R171). DESIGN CHOICE (log 5): a draw is named by how many came before it. -/
opaque randomByte : Nat → Byte

end Sys2Proof.Config
end

