-- ==== Sys2Proof/Machine/State.lean ====
section
/-! DEFINITION. The state of the machine as plain data (10_state.md), the reasons a step can stop, and the state right
after reset (10_state.md R35). -/

namespace Sys2Proof.Machine

open Sys2Proof

/-- The five kinds of fault (60_exceptions.md R260). -/
inductive FaultKind where
  /-- 00EE with an empty stack. -/
  | stackUnderflow
  /-- 2NNN with 16 return addresses held. -/
  | stackOverflow
  /-- A fetch or a data access at or above `MEM_SIZE`. -/
  | outOfBoundsAccess
  /-- A word that matches no row of the opcode map. -/
  | unknownOpcode
  /-- A ROM image longer than 3584 bytes. -/
  | romLoadError
  deriving DecidableEq, Repr

/-- The fault record (10_state.md R32). Its `code` is computed from `kind` by `FaultKind.code`. -/
structure FaultRec where
  kind : FaultKind
  /-- PC at the start of the faulting step; absent for `romLoadError`. -/
  pc : Option Word
  /-- The fetched word; absent when the fetch faulted or for `romLoadError`. -/
  word : Option Word
  /-- The first out-of-range byte address; present for `outOfBoundsAccess` only. -/
  addr : Option Nat
  deriving DecidableEq, Repr

/-- The mode of the state machine (10_state.md R31). -/
inductive Mode where
  /-- After `reset`, before the first `step`. -/
  | init
  /-- Executing. -/
  | run
  /-- FX0A is waiting for a key for `V[x]`. -/
  | waitKey (x : Reg)
  /-- A fault ended the session. -/
  | fault (r : FaultRec)
  deriving DecidableEq, Repr

/-- Memory: the bytes that are not 0x00, by address. A byte not listed is 0x00, the reset content of every byte
(10_state.md R28, R35). -/
structure Memory where
  cells : List Host.Cell
  deriving DecidableEq, Repr

/-- The display: row `y` is element `y`, and bit `x` of a row is the pixel at column `x`, 1 for ON (10_state.md R29;
DESIGN CHOICE, log 9: the 64 one-bit pixels of a row as one value of 64 bits). -/
abbrev Display := Vector (BitVec 64) 32

/-- What the host may do between two instructions (00_scope.md R9; 60_exceptions.md R278). -/
inductive HostMove where
  /-- Start a new session (70_reset_and_hazards.md R300). -/
  | reset
  /-- Copy 80 font bytes to address 0 (R302). -/
  | loadFont (bytes : Vector Byte 80)
  /-- Copy a ROM image to 0x200 (R303). -/
  | loadRom (bytes : List Byte)
  /-- Call `Execute()` (30_encoding.md R85). -/
  | step
  /-- Call `DecrementTimers()` (60_exceptions.md R269). -/
  | tick
  /-- Deliver a key to a waiting FX0A (44_keys_timers.md R237). -/
  | keyDeliver (k : Key)
  /-- Set the 16 level flags `key_down` (60_exceptions.md R272, R278). -/
  | setKeys (flags : Vector Bool 16)
  deriving DecidableEq, Repr

/-- The machine's state. The last three fields are the MODEL'S OWN: the spec takes them from outside (10_state.md
R36), and the model's step has nothing else to take them from (log 2, log 4, log 5). -/
structure State where
  /-- V0 to VF (R20, R21). -/
  v : Vector Byte 16
  /-- The program counter (R23). -/
  pc : Word
  /-- The index register (R25). -/
  i : Word
  /-- The delay timer (R26). -/
  dt : Byte
  /-- The sound timer (R26). -/
  st : Byte
  /-- The stack depth, 0 to 16 (R27). -/
  sp : Fin 17
  /-- The stack entries, stale ones included (R27, R34). -/
  stack : Vector Word 16
  /-- The 4096 bytes of memory (R28). -/
  mem : Memory
  /-- The 64 x 32 pixels (R29). -/
  disp : Display
  /-- The mode, with the fault record in `FAULT` (R31, R32). -/
  mode : Mode
  /-- The flags `key_down` as the host holds them now (R30). -/
  keyDown : Vector Bool 16
  /-- How many answers of `Random()` have been taken (R36). -/
  draws : Nat
  /-- The host's moves still to come, oldest first (R36). -/
  schedule : List HostMove
  deriving DecidableEq, Repr

/-- Why the machine stops with a fault. -/
inductive Fault where
  /-- Raised by `step` in mode `FAULT(rec)` when no host move is scheduled: no transition but `reset` is enabled there
  and the session is over (10_state.md R31; 60_exceptions.md R263; log 1). Safe. -/
  | terminal (r : FaultRec)
  deriving DecidableEq, Repr

/-- Why the model gives no meaning. -/
inductive Refusal where
  /-- An instruction with no meaning yet, by its mnemonic; raised by `exec` only. Safe. -/
  | notModelled (mnemonic : String)
  /-- Raised by `step` when the scheduled host move is not enabled in the present mode (10_state.md R31): the host has
  no such move (60_exceptions.md R278; log 6). Safe. -/
  | notEnabled (move : HostMove)
  deriving DecidableEq, Repr

/-- The machine right after reset (10_state.md R35; 70_reset_and_hazards.md R300, R301). The three fields of the
model's own are DESIGN CHOICE (log 2, log 4, log 5). -/
def State.reset : State where
  v := Vector.replicate 16 0
  pc := 0x200
  i := 0
  dt := 0
  st := 0
  sp := 0
  stack := Vector.replicate 16 0
  mem := ⟨[]⟩
  disp := Vector.replicate 32 0
  mode := .init
  keyDown := Vector.replicate 16 false
  draws := 0
  schedule := []

end Sys2Proof.Machine
end

