-- ==== Sys2Proof/Machine/Ops.lean ====
section
/-! DEFINITION. The named operations over memory, registers, the stack, the display and the mode that the meanings
share: the primitives of 00_scope.md R7, 20_memory.md R54 to R56, 10_state.md R27, and fault entry
(60_exceptions.md R262). -/

namespace Sys2Proof.Machine

open Sys2Proof

/-! ### Memory (20_memory.md) -/

/-- The byte listed for address `a`, or 0x00 where none is listed (10_state.md R35). -/
def readCells (a : Nat) : List Host.Cell → Byte
  | [] => 0
  | (b, w) :: rest => if a = b then w else readCells a rest

/-- Put the byte `v` at address `a` among cells that do not list `a`, before the first higher address. -/
def insertCell (a : Nat) (v : Byte) : List Host.Cell → List Host.Cell
  | [] => [(a, v)]
  | (b, w) :: rest => if a < b then (a, v) :: (b, w) :: rest else (b, w) :: insertCell a v rest

/-- The cells without address `a`. -/
def eraseCell (a : Nat) : List Host.Cell → List Host.Cell
  | [] => []
  | (b, w) :: rest => if a = b then eraseCell a rest else (b, w) :: eraseCell a rest

/-- `mem[a]` (R28). -/
def Memory.read (m : Memory) (a : Nat) : Byte := readCells a m.cells

/-- `mem[a] <- v`, keeping the canonical form: a 0x00 byte is not listed. -/
def Memory.write (m : Memory) (a : Nat) (v : Byte) : Memory :=
  ⟨if v = 0 then eraseCell a m.cells else insertCell a v (eraseCell a m.cells)⟩

/-- Bytes written at `a`, `a + 1`, and so on, with no bounds check (the loaders, R302 and R303). -/
def Memory.writeBytes (m : Memory) (a : Nat) : List Byte → Memory
  | [] => m
  | b :: rest => (m.write a b).writeBytes (a + 1) rest

/-- From address `lo` up, the cells are in canonical form: addresses strictly rise and stay below `MEM_SIZE`, and no
cell holds 0x00. -/
def cellsWf (lo : Nat) : List Host.Cell → Bool
  | [] => true
  | (a, v) :: rest => decide (lo ≤ a) && decide (a < Config.memSize) && decide (v ≠ 0) && cellsWf (a + 1) rest

/-- Memory is in its canonical form, so equal memories are equal data. -/
def Memory.wf (m : Memory) : Bool := cellsWf 0 m.cells

/-- `MemRead(a, 1)`: the byte, or the out-of-range address (R54). -/
def memRead (m : Memory) (a : Nat) : Except Nat Byte :=
  if a < Config.memSize then .ok (m.read a) else .error a

/-- `MemWrite(a, 1, v)`: the memory after it, or the out-of-range address (R55). -/
def memWrite (m : Memory) (a : Nat) (v : Byte) : Except Nat Memory :=
  if a < Config.memSize then .ok (m.write a v) else .error a

/-- Byte reads at `a`, `a + 1`, …, `n` of them, in increasing address order; the first out-of-range address is the
error (R59, R62). -/
def memReadSeq (m : Memory) (a : Nat) : Nat → Except Nat (List Byte)
  | 0 => .ok []
  | n + 1 =>
    match memRead m a with
    | .error e => .error e
    | .ok b =>
      match memReadSeq m (a + 1) n with
      | .error e => .error e
      | .ok bs => .ok (b :: bs)

/-- Byte writes at `a`, `a + 1`, …, in increasing address order; the first out-of-range address is the error, and then
no memory results (R55, R59). -/
def memWriteSeq (m : Memory) (a : Nat) : List Byte → Except Nat Memory
  | [] => .ok m
  | b :: rest =>
    match memWrite m a b with
    | .error e => .error e
    | .ok m' => memWriteSeq m' (a + 1) rest

/-- `FetchWord(a)`: both bytes must be in range; high byte first (R56). -/
def fetchWord (m : Memory) (a : Nat) : Except Nat Word :=
  if Config.memSize ≤ a then .error a
  else if Config.memSize ≤ a + 1 then .error (a + 1)
  else .ok (wordOfBytes (m.read a) (m.read (a + 1)))

/-! ### Registers and the program counter (10_state.md R20 to R25) -/

/-- `V[r]` (R7, R20). -/
def State.reg (s : State) (r : Reg) : Byte := s.v[r]

/-- `V[r] <- b` (R7, R20). No register is hardwired. -/
def State.setReg (s : State) (r : Reg) (b : Byte) : State := { s with v := s.v.set r b }

/-- `V[r] <- b0`, `V[r+1] <- b1`, …, in increasing order; registers past VF do not exist. -/
def State.setRegsFrom (s : State) (r : Nat) : List Byte → State
  | [] => s
  | b :: rest => if h : r < 16 then (s.setReg ⟨r, h⟩ b).setRegsFrom (r + 1) rest else s

/-- The state an instruction executes in: the mode is `RUN` and PC is past the instruction's 2 bytes, modulo 2^16
(30_encoding.md R85, R86; R23, R24). -/
def State.afterFetch (s : State) : State := { s with mode := .run, pc := s.pc + 2 }

/-- A skip passes over one more 2-byte slot when `c` holds (41_control_flow.md R138). -/
def State.skipWhen (s : State) (c : Bool) : State := { s with pc := if c then s.pc + 2 else s.pc }

/-! ### The stack (10_state.md R27) -/

/-- Push a return address; `none` when 16 are held (R27; 41_control_flow.md R132). -/
def State.push (s : State) (a : Word) : Option State :=
  if h : s.sp.val < Config.stackDepth then
    some { s with stack := s.stack.set s.sp.val a h, sp := ⟨s.sp.val + 1, by simp at h; omega⟩ }
  else none

/-- Pop the top return address, with the state after it; `none` when the stack is empty. The entry stays as a stale
value (R27, R34; 41_control_flow.md R130). -/
def State.pop (s : State) : Option (Word × State) :=
  if h : 0 < s.sp.val then
    some (s.stack[s.sp.val - 1]'(by have := s.sp.isLt; omega), { s with sp := ⟨s.sp.val - 1, by have := s.sp.isLt; omega⟩ })
  else none

/-! ### The display (10_state.md R29) -/

/-- `disp[x][y]`, `true` for ON; OFF outside the grid. -/
def pixel (d : Display) (x y : Nat) : Bool := if h : y < Config.height then (d[y]'h).getLsbD x else false

/-- `disp[x][y] <- not disp[x][y]`; nothing outside the grid. -/
def flipPixel (d : Display) (x y : Nat) : Display :=
  if h : y < Config.height then d.set y (d[y]'h ^^^ BitVec.twoPow 64 x) h else d

/-- Every pixel OFF (40_display.md R110). -/
def clearDisplay : Display := Vector.replicate 32 0

/-! ### Faults (60_exceptions.md) -/

/-- The numeric code of a kind (10_state.md R32; 60_exceptions.md R260). -/
def FaultKind.code : FaultKind → BitVec 8
  | .stackUnderflow => 1
  | .stackOverflow => 2
  | .outOfBoundsAccess => 3
  | .unknownOpcode => 4
  | .romLoadError => 5

/-- `code` of the record (10_state.md R32). -/
def FaultRec.code (r : FaultRec) : BitVec 8 := r.kind.code

/-- FAULT ENTRY, for every fault a step raises (60_exceptions.md R262): `s` is the state before the step, so every write
of the step is discarded, PC's advance and the `INIT` to `RUN` change included; the mode becomes `FAULT(rec)`, and
`rec.pc` is PC at the start of the step (R261). There is no return from it: the core has no handler, no vector and no
return instruction (R263), and only the host's `reset` leaves `FAULT` (R264). -/
def raise (kind : FaultKind) (word : Option Word) (addr : Option Nat) (s : State) : State :=
  { s with mode := .fault { kind := kind, pc := some s.pc, word := word, addr := addr } }

/-- The step of an instruction `i` that accesses memory: it completes with `k` of the access's result, or raises
`OutOfBoundsAccess` with the first out-of-range address (R261, R265). The recorded word is the instruction's own. -/
def orOutOfBounds {α : Type} (i : Instr) (s : State) (r : Except Nat α) (k : α → State) :
    Host.Outcome State Fault Refusal :=
  match r with
  | .ok a => .next (k a)
  | .error a => .next (raise .outOfBoundsAccess (some (encode i)) (some a) s)

end Sys2Proof.Machine
end

