-- ==== Sys2Proof/Machine/Flags.lean ====
section
/-! DEFINITION. The flag computations: what the six flag writers of 10_state.md R21 put into VF. -/

namespace Sys2Proof.Machine

open Sys2Proof

/-- A flag as VF holds it: 1 or 0 (10_state.md R21). -/
def flagByte (c : Bool) : Byte := if c then 1 else 0

/-- The carry of 8XY4: the exact sum is above 255 (42_alu.md R166). -/
def carryFlag (a b : Byte) : Byte := flagByte (decide (a.toNat + b.toNat > 255))

/-- The flag of 8XY5 and 8XY7: 1 exactly when the minuend is strictly greater (42_alu.md R167, R169, R172). -/
def noBorrowFlag (minuend subtrahend : Byte) : Byte := flagByte (decide (minuend.toNat > subtrahend.toNat))

/-- The flag of 8XY6: bit 0, about to be shifted out (42_alu.md R168). -/
def shiftedOutRight (a : Byte) : Byte := a &&& 1

/-- The flag of 8XYE: bit 7, about to be shifted out (42_alu.md R170). -/
def shiftedOutLeft (a : Byte) : Byte := (a >>> 7) &&& 1

/-- The flag of DXYN: some pixel went from ON to OFF (40_display.md R111). -/
def collisionFlag (c : Bool) : Byte := flagByte c

end Sys2Proof.Machine
end

