-- ==== Sys2Proof/Machine/Operands.lean ====
section
/-! DEFINITION. The operand forms of the instruction set (30_encoding.md R82, R83; 43_index_memory.md R206). Registers,
bytes and row counts are operands as they stand; the forms below compute a value, an address or a list. -/

namespace Sys2Proof.Machine

open Sys2Proof

/-- `zext_16(NNN)`: the 12-bit address as a value of PC or I (R82). -/
def zext16 (nnn : Addr12) : Word := nnn.zeroExtend 16

/-- `(V[0] + NNN) mod 65536` (R82; 41_control_flow.md R137). -/
def targetPlusV0 (s : State) (nnn : Addr12) : Word := BitVec.ofNat 16 ((s.reg 0).toNat + nnn.toNat)

/-- The address `I + k`, in exact arithmetic (20_memory.md R54; R206). -/
def indexAddr (s : State) (k : Nat) : Nat := s.i.toNat + k

/-- The key an instruction tests: `V[X] mod 16` (44_keys_timers.md R232). -/
def testedKey (s : State) (x : Reg) : Key := Fin.ofNat 16 (s.reg x).toNat

/-- `key_down[V[X] mod 16]` at the moment of the step (R230, R272). -/
def keyIsDown (s : State) (x : Reg) : Bool := s.keyDown[testedKey s x]

/-- `V[0]`, …, `V[X]`, in that order (R204). -/
def regsThrough (s : State) (x : Reg) : List Byte := s.v.toList.take (x.val + 1)

/-- The hundreds, tens and ones digits (R203). -/
def decimalDigits (v : Byte) : List Byte :=
  [BitVec.ofNat 8 (v.toNat / 100), BitVec.ofNat 8 (v.toNat / 10 % 10), BitVec.ofNat 8 (v.toNat % 10)]

/-- The address of the font glyph of a value: `5 * V[X]`, unmasked (R202). -/
def glyphAddr (v : Byte) : Word := BitVec.ofNat 16 (Config.glyphBytes * v.toNat)

/-- The sprite's origin column: `V[X] mod 64` (40_display.md R111). -/
def originX (s : State) (x : Reg) : Nat := (s.reg x).toNat % Config.width

/-- The sprite's origin row: `V[Y] mod 32` (R111). -/
def originY (s : State) (y : Reg) : Nat := (s.reg y).toNat % Config.height

end Sys2Proof.Machine
end

