-- ==== Sys2Proof/Machine/Alu.lean ====
section
/-! DEFINITION. The register and ALU instructions (42_alu.md R160 to R173). Statements run in the written order, each
seeing the registers as the earlier ones left them (00_scope.md R8; 42_alu.md R173). -/

namespace Sys2Proof.Machine

open Sys2Proof

/-- `(a - b + 256) mod 256`, the difference both branches of 8XY5 and 8XY7 leave (R167, R169). -/
def wrapSub (a b : Byte) : Byte := BitVec.ofNat 8 (a.toNat + 256 - b.toNat)

/-- The sum of two bytes modulo 256 (R161, R166). -/
def wrapAdd (a b : Byte) : Byte := BitVec.ofNat 8 (a.toNat + b.toNat)

/-- 6XNN `LD Vx, byte` (R160). -/
def execLdImm (x : Reg) (nn : Byte) (s : State) : Host.Outcome State Fault Refusal :=
  .next (s.afterFetch.setReg x nn)

/-- 7XNN `ADD Vx, byte` (R161). -/
def execAddImm (x : Reg) (nn : Byte) (s : State) : Host.Outcome State Fault Refusal :=
  .next (s.afterFetch.setReg x (wrapAdd (s.reg x) nn))

/-- 8XY0 `LD Vx, Vy` (R162). -/
def execLdReg (x y : Reg) (s : State) : Host.Outcome State Fault Refusal :=
  .next (s.afterFetch.setReg x (s.reg y))

/-- 8XY1 `OR Vx, Vy` (R163). -/
def execOrReg (x y : Reg) (s : State) : Host.Outcome State Fault Refusal :=
  .next (s.afterFetch.setReg x (s.reg x ||| s.reg y))

/-- 8XY2 `AND Vx, Vy` (R164). -/
def execAndReg (x y : Reg) (s : State) : Host.Outcome State Fault Refusal :=
  .next (s.afterFetch.setReg x (s.reg x &&& s.reg y))

/-- 8XY3 `XOR Vx, Vy` (R165). -/
def execXorReg (x y : Reg) (s : State) : Host.Outcome State Fault Refusal :=
  .next (s.afterFetch.setReg x (s.reg x ^^^ s.reg y))

/-- 8XY4 `ADD Vx, Vy` (R166): the sum first, then the carry. -/
def execAddReg (x y : Reg) (s : State) : Host.Outcome State Fault Refusal :=
  .next ((s.afterFetch.setReg x (wrapAdd (s.reg x) (s.reg y))).setReg Reg.vf (carryFlag (s.reg x) (s.reg y)))

/-- 8XY5 `SUB Vx, Vy` (R167): the difference first, then the flag. -/
def execSubReg (x y : Reg) (s : State) : Host.Outcome State Fault Refusal :=
  .next ((s.afterFetch.setReg x (wrapSub (s.reg x) (s.reg y))).setReg Reg.vf (noBorrowFlag (s.reg x) (s.reg y)))

/-- 8XY6 `SHR Vx, Vy` (R168): VF first, then the shift, which reads `V[X]` after the VF write. Y is ignored. -/
def execShrReg (x _y : Reg) (s : State) : Host.Outcome State Fault Refusal :=
  let s1 := s.afterFetch.setReg Reg.vf (shiftedOutRight (s.reg x))
  .next (s1.setReg x (s1.reg x >>> 1))

/-- 8XY7 `SUBN Vx, Vy` (R169): the difference first, then the flag. -/
def execSubnReg (x y : Reg) (s : State) : Host.Outcome State Fault Refusal :=
  .next ((s.afterFetch.setReg x (wrapSub (s.reg y) (s.reg x))).setReg Reg.vf (noBorrowFlag (s.reg y) (s.reg x)))

/-- 8XYE `SHL Vx, Vy` (R170): VF first, then the shift, which reads `V[X]` after the VF write. Y is ignored. -/
def execShlReg (x _y : Reg) (s : State) : Host.Outcome State Fault Refusal :=
  let s1 := s.afterFetch.setReg Reg.vf (shiftedOutLeft (s.reg x))
  .next (s1.setReg x (s1.reg x <<< 1))

/-- CXNN `RND Vx, byte` (R171): the draw is a free value, taken once. -/
def execRnd (x : Reg) (nn : Byte) (s : State) : Host.Outcome State Fault Refusal :=
  .next { s.afterFetch.setReg x (Config.randomByte s.draws &&& nn) with draws := s.draws + 1 }

end Sys2Proof.Machine
end

