-- ==== Sys2Proof/Machine/ControlFlow.lean ====
section
/-! DEFINITION. Control transfer: return, jumps, call and skips (41_control_flow.md R130 to R140). -/

namespace Sys2Proof.Machine

open Sys2Proof

/-- 00EE `RET` (R130). -/
def execRet (s : State) : Host.Outcome State Fault Refusal :=
  match s.afterFetch.pop with
  | some (a, s') => .next { s' with pc := a }
  | none => .next (raise .stackUnderflow (some (encode .ret)) none s)

/-- 1NNN `JP addr` (R131). -/
def execJp (nnn : Addr12) (s : State) : Host.Outcome State Fault Refusal :=
  .next { s.afterFetch with pc := zext16 nnn }

/-- 2NNN `CALL addr` (R132): the return address is PC after the fetch's advance. -/
def execCall (nnn : Addr12) (s : State) : Host.Outcome State Fault Refusal :=
  match s.afterFetch.push s.afterFetch.pc with
  | some s' => .next { s' with pc := zext16 nnn }
  | none => .next (raise .stackOverflow (some (encode (.call nnn))) none s)

/-- 3XNN `SE Vx, byte` (R133). -/
def execSeImm (x : Reg) (nn : Byte) (s : State) : Host.Outcome State Fault Refusal :=
  .next (s.afterFetch.skipWhen (s.reg x == nn))

/-- 4XNN `SNE Vx, byte` (R134). -/
def execSneImm (x : Reg) (nn : Byte) (s : State) : Host.Outcome State Fault Refusal :=
  .next (s.afterFetch.skipWhen (s.reg x != nn))

/-- 5XY0 `SE Vx, Vy` (R135). -/
def execSeReg (x y : Reg) (s : State) : Host.Outcome State Fault Refusal :=
  .next (s.afterFetch.skipWhen (s.reg x == s.reg y))

/-- 9XY0 `SNE Vx, Vy` (R136). -/
def execSneReg (x y : Reg) (s : State) : Host.Outcome State Fault Refusal :=
  .next (s.afterFetch.skipWhen (s.reg x != s.reg y))

/-- BNNN `JP V0, addr` (R137). -/
def execJpV0 (nnn : Addr12) (s : State) : Host.Outcome State Fault Refusal :=
  .next { s.afterFetch with pc := targetPlusV0 s nnn }

end Sys2Proof.Machine
end

