-- ==== Sys2Proof/Machine/IndexMemory.lean ====
section
/-! DEFINITION. The index register and memory instructions (43_index_memory.md R200 to R206). -/

namespace Sys2Proof.Machine

open Sys2Proof

/-- ANNN `LD I, addr` (R200). -/
def execLdI (nnn : Addr12) (s : State) : Host.Outcome State Fault Refusal :=
  .next { s.afterFetch with i := zext16 nnn }

/-- FX1E `ADD I, Vx` (R201): modulo 65536, VF unchanged. -/
def execAddI (x : Reg) (s : State) : Host.Outcome State Fault Refusal :=
  .next { s.afterFetch with i := BitVec.ofNat 16 (s.i.toNat + (s.reg x).toNat) }

/-- FX29 `LD F, Vx` (R202). -/
def execLdF (x : Reg) (s : State) : Host.Outcome State Fault Refusal :=
  .next { s.afterFetch with i := glyphAddr (s.reg x) }

/-- FX33 `LD B, Vx` (R203). -/
def execLdB (x : Reg) (s : State) : Host.Outcome State Fault Refusal :=
  orOutOfBounds (.ldB x) s (memWriteSeq s.mem (indexAddr s 0) (decimalDigits (s.reg x)))
    (fun m => { s.afterFetch with mem := m })

/-- FX55 `LD [I], Vx` (R204). -/
def execLdStore (x : Reg) (s : State) : Host.Outcome State Fault Refusal :=
  orOutOfBounds (.ldStore x) s (memWriteSeq s.mem (indexAddr s 0) (regsThrough s x))
    (fun m => { s.afterFetch with mem := m })

/-- FX65 `LD Vx, [I]` (R205). -/
def execLdLoad (x : Reg) (s : State) : Host.Outcome State Fault Refusal :=
  orOutOfBounds (.ldLoad x) s (memReadSeq s.mem (indexAddr s 0) (x.val + 1))
    (fun bs => s.afterFetch.setRegsFrom 0 bs)

end Sys2Proof.Machine
end

