-- ==== Sys2Proof/Machine/KeysTimers.lean ====
section
/-! DEFINITION. The keypad and timer instructions (44_keys_timers.md R230 to R236). -/

namespace Sys2Proof.Machine

open Sys2Proof

/-- EX9E `SKP Vx` (R230, R232). -/
def execSkp (x : Reg) (s : State) : Host.Outcome State Fault Refusal :=
  .next (s.afterFetch.skipWhen (keyIsDown s x))

/-- EXA1 `SKNP Vx` (R231, R232). -/
def execSknp (x : Reg) (s : State) : Host.Outcome State Fault Refusal :=
  .next (s.afterFetch.skipWhen (!keyIsDown s x))

/-- FX07 `LD Vx, DT` (R233). -/
def execLdVxDt (x : Reg) (s : State) : Host.Outcome State Fault Refusal :=
  .next (s.afterFetch.setReg x s.dt)

/-- FX15 `LD DT, Vx` (R234). -/
def execLdDt (x : Reg) (s : State) : Host.Outcome State Fault Refusal :=
  .next { s.afterFetch with dt := s.reg x }

/-- FX18 `LD ST, Vx` (R235). -/
def execLdSt (x : Reg) (s : State) : Host.Outcome State Fault Refusal :=
  .next { s.afterFetch with st := s.reg x }

/-- FX0A `LD Vx, K` (R236): the step ends in mode `WAITKEY(X)`; `V[X]` is written by `keyDeliver` (R237). -/
def execLdVxK (x : Reg) (s : State) : Host.Outcome State Fault Refusal :=
  .next { s.afterFetch with mode := .waitKey x }

end Sys2Proof.Machine
end

