-- ==== Sys2Proof/Machine/Screen.lean ====
section
/-! DEFINITION. The display instructions and the sprite rasterizer (40_display.md R110 to R113). -/

namespace Sys2Proof.Machine

open Sys2Proof

/-- 00E0 `CLS` (R110). -/
def execCls (s : State) : Host.Outcome State Fault Refusal :=
  .next { s.afterFetch with disp := clearDisplay }

/-- The columns of one sprite row, bit 7 of `b` first, `remaining` of them from `col` on, clipped at the right edge
(R111, R112). The pair is the buffer and whether a pixel went from ON to OFF. -/
def drawColumns (b : Byte) (x0 y : Nat) : (remaining col : Nat) → Display × Bool → Display × Bool
  | 0, _, acc => acc
  | k + 1, col, acc =>
    if Config.width ≤ x0 + col then acc
    else if b.getLsbD (7 - col) then
      drawColumns b x0 y k (col + 1) (flipPixel acc.1 (x0 + col) y, acc.2 || pixel acc.1 (x0 + col) y)
    else drawColumns b x0 y k (col + 1) acc

/-- The rows of a sprite, `remaining` of them from `row` on: a row's byte is read before its clip test, and the first
row below the bottom edge ends the sprite (R111). -/
def drawRows (m : Memory) (base x0 y0 : Nat) : (remaining row : Nat) → Display × Bool → Except Nat (Display × Bool)
  | 0, _, acc => .ok acc
  | k + 1, row, acc =>
    match memRead m (base + row) with
    | .error a => .error a
    | .ok b =>
      if Config.height ≤ y0 + row then .ok acc
      else drawRows m base x0 y0 k (row + 1) (drawColumns b x0 (y0 + row) 8 0 acc)

/-- DXYN `DRW Vx, Vy, nibble` (R111): the origin is read before VF is reset, and VF ends as the collision flag. -/
def execDrw (x y : Reg) (n : Nat) (s : State) : Host.Outcome State Fault Refusal :=
  orOutOfBounds (.drw x y n) s
    (drawRows s.mem (indexAddr s 0) (originX s x) (originY s y) n 0 (s.disp, false))
    (fun r => { s.afterFetch.setReg Reg.vf (collisionFlag r.2) with disp := r.1 })

end Sys2Proof.Machine
end

