-- ==== Sys2Proof/Machine/Transactions.lean ====
section
/-! DEFINITION. The transactions around `step` (00_scope.md R9): `reset`, the loaders, `tick`, `key_deliver`, the
setting of `key_down`, the mode that enables each (10_state.md R31), and the read-only queries (60_exceptions.md R271,
R274). -/

namespace Sys2Proof.Machine

open Sys2Proof

/-- `reset`: every piece of core state to its value of 10_state.md R35, the fault record gone (70_reset_and_hazards.md
R300). The host's own things are not core state and stay: its flags, its moves still to come, its random source. -/
def resetMove (s : State) : State :=
  { State.reset with keyDown := s.keyDown, draws := s.draws, schedule := s.schedule }

/-- `load_font(b)`: 80 bytes to address 0 (70_reset_and_hazards.md R302). -/
def loadFont (b : Vector Byte 80) (s : State) : State :=
  { s with mem := s.mem.writeBytes Config.fontBase b.toList }

/-- `load_rom(b)`: all or nothing, at 0x200; an image over 3584 bytes leaves memory unchanged and enters
`FAULT(RomLoadError)` (70_reset_and_hazards.md R303; 60_exceptions.md R261). -/
def loadRom (b : List Byte) (s : State) : State :=
  if b.length > Config.romMax then
    { s with mode := .fault { kind := .romLoadError, pc := none, word := none, addr := none } }
  else { s with mem := s.mem.writeBytes Config.romBase b }

/-- A timer after one decrement, never below zero (60_exceptions.md R269). -/
def countDown (t : Byte) : Byte := if t.toNat > 0 then t - 1 else t

/-- `tick` (60_exceptions.md R269). -/
def tick (s : State) : State := { s with dt := countDown s.dt, st := countDown s.st }

/-- `key_deliver(k)`: ends the wait of an FX0A (44_keys_timers.md R237). Outside `WAITKEY` it is not enabled. -/
def keyDeliver (k : Key) (s : State) : State :=
  match s.mode with
  | .waitKey x => { s.setReg x (BitVec.ofNat 8 k.val) with mode := .run }
  | .init | .run | .fault _ => s

/-- The host sets its 16 level flags (60_exceptions.md R272, R278). -/
def setKeys (flags : Vector Bool 16) (s : State) : State := { s with keyDown := flags }

/-- Which moves a mode enables (10_state.md R31; 00_scope.md R9; 60_exceptions.md R263, R278). -/
def enabled : Mode → HostMove → Bool
  | _, .reset => true
  | _, .setKeys _ => true
  | .init, .loadFont _ | .init, .loadRom _ | .init, .step | .init, .tick => true
  | .init, .keyDeliver _ => false
  | .run, .step | .run, .tick => true
  | .run, .loadFont _ | .run, .loadRom _ | .run, .keyDeliver _ => false
  | .waitKey _, .keyDeliver _ | .waitKey _, .tick => true
  | .waitKey _, .loadFont _ | .waitKey _, .loadRom _ | .waitKey _, .step => false
  | .fault _, .loadFont _ | .fault _, .loadRom _ | .fault _, .step | .fault _, .tick | .fault _, .keyDeliver _ => false

/-- `disp_width` (60_exceptions.md R274). -/
def dispWidth (_ : State) : Nat := Config.width

/-- `disp_height` (60_exceptions.md R274). -/
def dispHeight (_ : State) : Nat := Config.height

/-- `disp_pixel(x, y)`, for coordinates in the grid (60_exceptions.md R274). -/
def dispPixel (s : State) (x : Fin 64) (y : Fin 32) : Bool := pixel s.disp x y

/-- `sound_value` (60_exceptions.md R271). -/
def soundValue (s : State) : Byte := s.st

/-- `status`: the mode, with the fault record in `FAULT` (00_scope.md R9; 60_exceptions.md R262). -/
def status (s : State) : Mode := s.mode

end Sys2Proof.Machine
end

