-- ==== Sys2Proof/Machine/Cycle.lean ====
section
/-! DEFINITION. The instruction cycle of one `step` transaction (30_encoding.md R85), and the performing of one host
move (00_scope.md R9). -/

namespace Sys2Proof.Machine

open Sys2Proof

/-- Fetch, decode, execute, as one transaction, from a state whose mode is `INIT` or `RUN` (30_encoding.md R85). The
fetch's fault comes first, then `UnknownOpcode`, then the instruction's own (60_exceptions.md R261, R265). -/
def cycle (s : State) : Host.Outcome State Fault Refusal :=
  match fetchWord s.mem s.pc.toNat with
  | .error a => .next (raise .outOfBoundsAccess none (some a) s)
  | .ok w =>
    match decodeWord w with
    | none => .next (raise .unknownOpcode (some w) none s)
    | some i => exec i s

/-- The host calls `Execute()` with no other move to come first: an instruction in `INIT` and `RUN`; in `WAITKEY` the
call does not return and nothing changes (44_keys_timers.md R236; log 3); in `FAULT` the session is over
(60_exceptions.md R263; log 1). -/
def executeCall (s : State) : Host.Outcome State Fault Refusal :=
  match s.mode with
  | .init => cycle s
  | .run => cycle s
  | .waitKey _ => .next s
  | .fault r => .fault (.terminal r)

/-- One host move, performed when the mode enables it and refused by name when not (10_state.md R31; log 6). -/
def performMove (m : HostMove) (s : State) : Host.Outcome State Fault Refusal :=
  if enabled s.mode m then
    match m with
    | .reset => .next (resetMove s)
    | .loadFont b => .next (loadFont b s)
    | .loadRom b => .next (loadRom b s)
    | .step => cycle s
    | .tick => .next (tick s)
    | .keyDeliver k => .next (keyDeliver k s)
    | .setKeys f => .next (setKeys f s)
  else .refused (.notEnabled m)

end Sys2Proof.Machine
end

