-- ==== Sys2Proof/Machine/Step.lean ====
section
/-! DEFINITION. The machine's one step, and the state in which a given word is the next instruction. -/

namespace Sys2Proof.Machine

open Sys2Proof

/-- One transaction: the oldest scheduled host move, or, when none is scheduled, a call of `Execute()`
(20_memory.md R61; 60_exceptions.md R267; log 2). -/
def step (s : State) : Host.Outcome State Fault Refusal :=
  match s.schedule with
  | [] => executeCall s
  | m :: rest => performMove m { s with schedule := rest }

/-- `s` with the instruction word `w` of `nbits` bits stored, high byte first, where the next step fetches (log 7). No
move is scheduled before it, the mode is one that executes, and a PC at which nothing can be fetched is replaced by the
entry point 0x200. -/
def State.withFetchWord (s : State) (nbits w : Nat) : State :=
  let word : Word := BitVec.ofNat 16 (w % 2 ^ nbits)
  let pc : Word := if s.pc.toNat + 1 < Config.memSize then s.pc else 0x200
  { s with
    pc := pc
    mem := s.mem.writeBytes pc.toNat [highByte word, lowByte word]
    mode := match s.mode with
      | .init => .init
      | .run | .waitKey _ | .fault _ => .run
    schedule := [] }

end Sys2Proof.Machine
end

