-- ==== Sys2Proof/Safety.lean ====
section
/-! DEFINITION. The terms claims use: a state that may step, a run as the host chooses it, the invariants, and what an
instruction leaves unchanged. -/

namespace Sys2Proof.Machine

open Sys2Proof

/-- `step` is enabled: the mode is `INIT` or `RUN` (30_encoding.md R85). -/
def State.canStep (s : State) : Prop := s.mode = .init ∨ s.mode = .run

/-- The run is faulted (60_exceptions.md R279). -/
def State.faulted (s : State) : Prop := ∃ r, s.mode = .fault r

/-- A run: the host's moves, performed one after the other in the order the host picks (20_memory.md R61;
60_exceptions.md R279). -/
def runMoves : List HostMove → State → Host.Outcome State Fault Refusal
  | [], s => .next s
  | m :: rest, s =>
    match performMove m s with
    | .next t => runMoves rest t
    | .fault r => .fault r
    | .refused r => .refused r

/-! ### Invariants -/

/-- What a fault record holds, its numeric code included, by its kind (10_state.md R32; 60_exceptions.md R260, R261). -/
def FaultRec.shape (r : FaultRec) : Prop :=
  match r.kind with
  | .stackUnderflow => r.code.toNat = 1 ∧ r.pc.isSome ∧ r.word = some 0x00EE ∧ r.addr = none
  | .stackOverflow =>
    r.code.toNat = 2 ∧ r.pc.isSome ∧ (∃ w : Word, r.word = some w ∧ w.toNat / 4096 = 2) ∧ r.addr = none
  | .outOfBoundsAccess =>
    r.code.toNat = 3 ∧ r.pc.isSome ∧ (∃ a, r.addr = some a ∧ Config.memSize ≤ a) ∧
    ∀ w, r.word = some w → (decodeWord w).isSome
  | .unknownOpcode =>
    r.code.toNat = 4 ∧ r.pc.isSome ∧ (∃ w, r.word = some w ∧ decodeWord w = none) ∧ r.addr = none
  | .romLoadError => r.code.toNat = 5 ∧ r.pc = none ∧ r.word = none ∧ r.addr = none

/-- A recorded fault has the shape of its kind. -/
def State.recordInv (s : State) : Prop := ∀ r, s.mode = .fault r → r.shape

/-- Memory is in canonical form and lists nothing at or above `MEM_SIZE`. -/
def State.memInv (s : State) : Prop := s.mem.wf = true

/-- PC is at most 0x10FE and every stack entry at most 0x1000 (10_state.md R24; 41_control_flow.md R132, R137). -/
def State.controlInv (s : State) : Prop :=
  s.pc.toNat ≤ 0x10FE ∧ ∀ j : Fin 16, (s.stack[j]).toNat ≤ 0x1000

/-! ### The sprite -/

/-- The bit a sprite of `n` rows at origin `(x0, y0)`, its bytes at `base` up, lays over the pixel at column `a` and row
`b`: bit 7 of a byte at column `x0`, byte `row` at row `y0 + row`, and no bit outside the sprite's own box (40_display.md
R111, R112). The grid's edges clip it, so only `a < 64` and `b < 32` are pixels. -/
def spriteBit (m : Memory) (base x0 y0 n a b : Nat) : Bool :=
  decide (x0 ≤ a ∧ a < x0 + 8 ∧ y0 ≤ b ∧ b < y0 + n) && (m.read (base + (b - y0))).getLsbD (7 - (a - x0))

/-! ### Encodings -/

/-- The words that are no instruction, as 30_encoding.md R87 lists them. -/
def unknownWord (w : Word) : Prop :=
  (w.toNat / 4096 = 0x0 ∧ w ≠ 0x00E0 ∧ w ≠ 0x00EE) ∨
  (w.toNat / 4096 = 0x5 ∧ w.toNat % 16 ≠ 0) ∨
  (w.toNat / 4096 = 0x8 ∧ w.toNat % 16 ∈ [0x8, 0x9, 0xA, 0xB, 0xC, 0xD, 0xF]) ∨
  (w.toNat / 4096 = 0x9 ∧ w.toNat % 16 ≠ 0) ∨
  (w.toNat / 4096 = 0xE ∧ w.toNat % 256 ≠ 0x9E ∧ w.toNat % 256 ≠ 0xA1) ∨
  (w.toNat / 4096 = 0xF ∧ w.toNat % 256 ∉ [0x07, 0x0A, 0x15, 0x18, 0x1E, 0x29, 0x33, 0x55, 0x65])

/-! ### What an instruction leaves -/

/-- `exec i s` answers a next state of which `P` holds. -/
def Leads (i : Instr) (s : State) (P : State → Prop) : Prop := ∃ t, exec i s = .next t ∧ P t

/-- The instruction raises: the whole step is discarded, and nothing but the mode differs from `s` (60_exceptions.md
R262). The record holds the instruction's address and word. -/
def Raises (i : Instr) (s : State) (kind : FaultKind) (addr : Option Nat) : Prop :=
  exec i s = .next { s with
    mode := .fault { kind := kind, pc := some s.pc, word := some (encode i), addr := addr } }

/-- The mode is `RUN` and PC is the instruction's address plus `k`, modulo 2^16 (10_state.md R23, R24). -/
def Advances (k : Nat) (s t : State) : Prop := t.mode = .run ∧ t.pc.toNat = (s.pc.toNat + k) % 65536

/-- The mode is `RUN` and PC is `a`. -/
def GoesTo (a : Nat) (_s t : State) : Prop := t.mode = .run ∧ t.pc.toNat = a

/-- The state outside the general registers, PC and the mode. -/
inductive Part where
  | i | dt | st | stack | memory | display | draws
  deriving DecidableEq, Repr

/-- The frame: every register but those `w` names is unchanged, and every part but those listed; every byte of memory
reads as before, every pixel is as before, the stack keeps its depth and its entries. What the host holds, its key flags
and its moves to come, is unchanged always. PC and the mode are not spoken of. -/
structure Unchanged (w : Reg → Prop) (parts : List Part) (s t : State) : Prop where
  regs : ∀ r, ¬ w r → t.reg r = s.reg r
  i : Part.i ∉ parts → t.i = s.i
  dt : Part.dt ∉ parts → t.dt = s.dt
  st : Part.st ∉ parts → t.st = s.st
  sp : Part.stack ∉ parts → t.sp = s.sp
  stack : Part.stack ∉ parts → t.stack = s.stack
  memory : Part.memory ∉ parts → ∀ a, t.mem.read a = s.mem.read a
  display : Part.display ∉ parts → ∀ x y, pixel t.disp x y = pixel s.disp x y
  draws : Part.draws ∉ parts → t.draws = s.draws
  keyDown : t.keyDown = s.keyDown
  schedule : t.schedule = s.schedule

/-- No register is written. -/
def noReg (_ : Reg) : Prop := False

/-- `V[x]` gets `b` and nothing else changes but PC, which is past the instruction. -/
def WritesOnly (x : Reg) (b : Byte) (s t : State) : Prop :=
  Advances 2 s t ∧ t.reg x = b ∧ Unchanged (· = x) [] s t

/-- A skip: PC is past one more slot when `c` holds, and nothing else changes (41_control_flow.md R138). -/
def SkipsIf (c : Prop) (s t : State) : Prop :=
  (c → Advances 4 s t) ∧ (¬ c → Advances 2 s t) ∧ Unchanged noReg [] s t

/-- The registers an instruction may write: its X where the map of 30_encoding.md R84 writes VX, V0 to VX for FX65, and
VF for the six flag writers (10_state.md R20, R21). -/
def writesReg : Instr → Reg → Prop
  | .ldImm x _, r | .addImm x _, r | .ldReg x _, r | .orReg x _, r | .andReg x _, r | .xorReg x _, r => r = x
  | .rnd x _, r | .ldVxDt x, r => r = x
  | .addReg x _, r | .subReg x _, r | .shrReg x _, r | .subnReg x _, r | .shlReg x _, r => r = x ∨ r = Reg.vf
  | .drw _ _ _, r => r = Reg.vf
  | .ldLoad x, r => r ≤ x
  | .cls, _ | .ret, _ | .jp _, _ | .call _, _ | .seImm _ _, _ | .sneImm _ _, _ | .seReg _ _, _ | .sneReg _ _, _ => False
  | .ldI _, _ | .jpV0 _, _ | .skp _, _ | .sknp _, _ | .ldVxK _, _ | .ldDt _, _ | .ldSt _, _ | .addI _, _ => False
  | .ldF _, _ | .ldB _, _ | .ldStore _, _ => False

/-- The other state an instruction may write (10_state.md R25 to R29; 42_alu.md R171). -/
def writtenParts : Instr → List Part
  | .ldI _ | .addI _ | .ldF _ => [.i]
  | .ldDt _ => [.dt]
  | .ldSt _ => [.st]
  | .call _ | .ret => [.stack]
  | .ldB _ | .ldStore _ => [.memory]
  | .cls | .drw _ _ _ => [.display]
  | .rnd _ _ => [.draws]
  | .jp _ | .seImm _ _ | .sneImm _ _ | .seReg _ _ | .sneReg _ _ | .jpV0 _ | .ldImm _ _ | .addImm _ _ | .ldReg _ _ => []
  | .orReg _ _ | .andReg _ _ | .xorReg _ _ | .addReg _ _ | .subReg _ _ | .shrReg _ _ | .subnReg _ _ | .shlReg _ _ => []
  | .skp _ | .sknp _ | .ldVxDt _ | .ldVxK _ | .ldLoad _ => []

/-- The instruction names VF as an operand register, or stores or loads it as part of a block (10_state.md R22). The Y of
8XY6 and 8XYE is ignored and names nothing. -/
def namesVf : Instr → Prop
  | .seImm x _ | .sneImm x _ | .ldImm x _ | .addImm x _ | .rnd x _ | .shrReg x _ | .shlReg x _ => x = Reg.vf
  | .seReg x y | .sneReg x y | .ldReg x y | .orReg x y | .andReg x y | .xorReg x y => x = Reg.vf ∨ y = Reg.vf
  | .addReg x y | .subReg x y | .subnReg x y | .drw x y _ => x = Reg.vf ∨ y = Reg.vf
  | .skp x | .sknp x | .ldVxDt x | .ldVxK x | .ldDt x | .ldSt x | .addI x | .ldF x | .ldB x => x = Reg.vf
  | .ldStore x | .ldLoad x => x = Reg.vf
  | .cls | .ret | .jp _ | .call _ | .ldI _ | .jpV0 _ => False

/-- Two states that differ at most in stack entries at or above the stack depth (10_state.md R34). -/
def SameButStale (s t : State) : Prop :=
  t = { s with stack := t.stack } ∧ ∀ j : Fin 16, j.val < s.sp.val → t.stack[j] = s.stack[j]

end Sys2Proof.Machine
end

