-- ==== Sys2Proof/Certificates/Slice0/Obligations.lean ====
section
/-! DEFINITION. The statements for the provers, from the numbered rules of spec/. Nothing here rests on a value of
`Config.randomByte` or on the reset value of a field of the model's own. Where a rule carries a mark of the spec's own
("decision", "derived"), the statement's basis is derived and its docstring names the decision of 92_eei_decisions.md. -/

open Sys2Proof Sys2Proof.Machine

/-! ### Encoding and decoding (30_encoding.md) -/

/-- Decoding the encoding of a well-formed instruction gives it back, as a word and as bytes with more bytes behind. -/
def Obligations.DecodeOfEncodeIsTheInstruction : Prop :=
  ∀ i : Instr, i.wellFormed = true →
    decodeWord (encode i) = some i ∧ ∀ rest, decode (encodeBytes i ++ rest) = .ok (i, rest)

/-- A word that decodes is the encoding of what it decodes to, which is well-formed. -/
def Obligations.EncodeOfDecodedWordIsTheWord : Prop :=
  ∀ (w : Word) (i : Instr), decodeWord w = some i → encode i = w ∧ i.wellFormed = true

/-- R84: the nested switch reads every word as the opcode map of 34 rows does, and no word matches two rows. The spec
marks its sentence on the overlap as derived. -/
def Obligations.DecoderFollowsTheOpcodeMap : Prop :=
  opcodeMap.length = 34 ∧
  ∀ w : Word, decodeWord w = lookupWord w ∧ (opcodeMap.filter (fun r => r.accepts w)).length ≤ 1

/-- R87, R88, R261, R262: the unknown words are exactly the listed ones, and a step that fetches one raises
`UnknownOpcode`. The spec marks that an unknown word is a fault and what a faulting step leaves and records as its own
decisions, D7 and D8. That the fault is a next state is the model's choice (log 1). -/
def Obligations.UnknownWordsRaiseUnknownOpcode : Prop :=
  (∀ w : Word, decodeWord w = none ↔ unknownWord w) ∧
  ∀ (s : State) (w : Word), s.canStep → s.pc.toNat + 1 < 4096 →
    w.toNat = (s.mem.read s.pc.toNat).toNat * 256 + (s.mem.read (s.pc.toNat + 1)).toNat → unknownWord w →
    performMove .step s = .next { s with
      mode := .fault { kind := .unknownOpcode, pc := some s.pc, word := some w, addr := none } }

/-- Words written out from the encodings of R84, one or two of each family, decode to what they stand for. -/
def Obligations.WrittenWordsDecode : Prop :=
  decodeWord 0x00EE = some .ret ∧ decodeWord 0x2ABC = some (.call 0xABC) ∧ decodeWord 0x3A5C = some (.seImm 0xA 0x5C) ∧
  decodeWord 0x8AB4 = some (.addReg 0xA 0xB) ∧ decodeWord 0x8ABE = some (.shlReg 0xA 0xB) ∧
  decodeWord 0xC30F = some (.rnd 3 0x0F) ∧ decodeWord 0xD12F = some (.drw 1 2 15) ∧ decodeWord 0xEBA1 = some (.sknp 0xB) ∧
  decodeWord 0xF70A = some (.ldVxK 7) ∧ decodeWord 0xFC33 = some (.ldB 0xC) ∧ decodeWord 0x5AB1 = none

/-! ### The instruction cycle and faults (30_encoding.md R85; 60_exceptions.md) -/

/-- When the two bytes at PC decode to `i`, a step is `exec i` from that same state: `exec` holds PC's advance itself. So
it is for a step with nothing scheduled, for a scheduled `step`, and for the `step` transaction. -/
def Obligations.StepRunsTheDecodedInstruction : Prop :=
  ∀ (s : State) (i : Instr), s.canStep → s.pc.toNat + 1 < 4096 →
    decode [s.mem.read s.pc.toNat, s.mem.read (s.pc.toNat + 1)] = .ok (i, []) →
    performMove .step s = exec i s ∧ (s.schedule = [] → step s = exec i s) ∧
    ∀ rest, s.schedule = .step :: rest → step s = exec i { s with schedule := rest }

/-- R56: a fetch reads two bytes, high byte first; both must be below 4096, and the first address that is not is
reported. R261, R262: a step whose fetch faults changes nothing but the mode, and records no word. The spec marks the
fault of the second byte and what a faulting step leaves and records as its own decisions, D5 and D8. That the fault
is a next state is the model's choice (log 1). -/
def Obligations.FetchNeedsBothBytesInRange : Prop :=
  (∀ (m : Memory) (a : Nat),
    (a + 1 < 4096 → ∃ w, fetchWord m a = .ok w ∧ w.toNat = (m.read a).toNat * 256 + (m.read (a + 1)).toNat) ∧
    (4096 ≤ a → fetchWord m a = .error a) ∧ (a = 4095 → fetchWord m a = .error 4096)) ∧
  ∀ s : State, s.canStep → 4096 ≤ s.pc.toNat + 1 →
    performMove .step s = .next { s with
      mode := .fault { kind := .outOfBoundsAccess, pc := some s.pc, word := none, addr := some (max s.pc.toNat 4096) } }

/-- R262 and R261: a step that raises changes nothing but the mode, which holds a record of the right shape (fields
and numeric code, R260): PC at the step's start, the word the fetch read, and no word exactly when the fetch itself
faulted. The spec marks what a faulting step leaves and records and the numeric codes as its own decisions, D8 and
D24. That the fault is a next state is the model's choice (log 1). -/
def Obligations.FaultingStepChangesOnlyTheMode : Prop :=
  ∀ (s t : State) (r : FaultRec), s.canStep → performMove .step s = .next t → t.mode = .fault r →
    t = { s with mode := .fault r } ∧ status t = .fault r ∧ r.pc = some s.pc ∧ r.shape ∧
    (∀ w, r.word = some w → fetchWord s.mem s.pc.toNat = .ok w) ∧
    (r.word = none → ∃ a, fetchWord s.mem s.pc.toNat = .error a ∧ r.addr = some a)

/-- R263, R264: in `FAULT` no step and no move leads to a next state but `reset`, which starts a new session, and the
setting of the host's own key flags, which changes nothing of the core. The spec marks which moves FAULT enables as
its own decision, D19. That the host sets its key flags by a move that FAULT enables too, and that changes the field
keyDown, is the model's choice (log 4), by the liberty R278 gives the host. -/
def Obligations.FaultModeIsTerminal : Prop :=
  ∀ (s : State) (r : FaultRec), s.mode = .fault r →
    (s.schedule = [] → ∀ t, step s ≠ .next t) ∧
    (∀ m, m ≠ .reset → (∀ f, m ≠ .setKeys f) → ∀ t, performMove m s ≠ .next t) ∧
    (∀ f, performMove (.setKeys f) s = .next { s with keyDown := f }) ∧
    ∃ t, performMove .reset s = .next t ∧ t.mode = .init

/-- R85: from `INIT` or `RUN` a step always ends in a next state, in `RUN`, in `WAITKEY(x)` when the fetched word is
FX0A for that `x`, or in `FAULT`. No word, and no data, stops the machine otherwise. That the fault is a next state is
the model's choice (log 1). -/
def Obligations.RunningStepAlwaysAnswersNext : Prop :=
  ∀ s : State, s.canStep → ∃ t, performMove .step s = .next t ∧
    (t.mode = .run ∨
     (∃ (x : Reg) (w : Word), t.mode = .waitKey x ∧ fetchWord s.mem s.pc.toNat = .ok w ∧ w.toNat = 0xF00A + x.val * 256) ∨
     ∃ r, t.mode = .fault r)

/-- R86, R305: no `step` ends in `INIT`, nothing but `reset` leads back to it, and the loaders run in it only. The
spec marks the mode INIT and that the loaders run in INIT only as its own decisions, D32 and D20. -/
def Obligations.InitEndsAtTheFirstStep : Prop :=
  ∀ (m : HostMove) (s t : State), performMove m s = .next t →
    (m = .step → t.mode ≠ .init) ∧ (t.mode = .init → s.mode ≠ .init → m = .reset) ∧
    (((∃ b, m = .loadFont b) ∨ ∃ b, m = .loadRom b) → s.mode = .init)

/-- R61, R267: whatever moves the host performs one after the other, the machine with those moves as its schedule makes
the same run, one step a move. The schedule is the model's own field (log 2). -/
def Obligations.EveryTransactionOrderIsARun : Prop :=
  ∀ (ms : List HostMove) (s t : State), s.schedule = [] → runMoves ms s = .next t →
    Host.Core.run Sys2Proof.core ms.length ({ s with schedule := ms } : State) = .next t

/-! ### Register and ALU instructions (42_alu.md) -/

/-- R160, R162 to R165: the moves and the bitwise operations write `V[X]` and nothing else, VF included unless X = F.
The spec marks that what a row does not name is unchanged as its own decision, D11. -/
def Obligations.MovesAndLogicWriteOnlyVx : Prop :=
  ∀ (x y : Reg) (nn : Byte) (s : State),
    Leads (.ldImm x nn) s (WritesOnly x nn s) ∧
    Leads (.ldReg x y) s (WritesOnly x (s.reg y) s) ∧
    Leads (.orReg x y) s (WritesOnly x (s.reg x ||| s.reg y) s) ∧
    Leads (.andReg x y) s (WritesOnly x (s.reg x &&& s.reg y) s) ∧
    Leads (.xorReg x y) s (WritesOnly x (s.reg x ^^^ s.reg y) s) ∧
    (encode (.ldImm x nn)).toNat = 0x6000 + x.val * 256 + nn.toNat ∧
    (encode (.ldReg x y)).toNat = 0x8000 + x.val * 256 + y.val * 16 ∧
    (encode (.orReg x y)).toNat = 0x8001 + x.val * 256 + y.val * 16 ∧
    (encode (.andReg x y)).toNat = 0x8002 + x.val * 256 + y.val * 16 ∧
    (encode (.xorReg x y)).toNat = 0x8003 + x.val * 256 + y.val * 16

/-- R161: the sum wraps at 256 and no flag records it; VF changes only as the destination. -/
def Obligations.AddImmediateWrapsWithoutCarry : Prop :=
  ∀ (x : Reg) (nn : Byte) (s : State),
    Leads (.addImm x nn) s (fun t => Advances 2 s t ∧ (t.reg x).toNat = ((s.reg x).toNat + nn.toNat) % 256 ∧
      Unchanged (· = x) [] s t) ∧
    (encode (.addImm x nn)).toNat = 0x7000 + x.val * 256 + nn.toNat

/-- R166: VF is the carry of the exact sum and is written last, so it is the carry for X = F too. -/
def Obligations.AddSetsCarryLast : Prop :=
  ∀ (x y : Reg) (s : State),
    Leads (.addReg x y) s (fun t => Advances 2 s t ∧
      (x ≠ Reg.vf → (t.reg x).toNat = ((s.reg x).toNat + (s.reg y).toNat) % 256) ∧
      t.reg Reg.vf = (if (s.reg x).toNat + (s.reg y).toNat > 255 then 1 else 0) ∧
      Unchanged (fun r => r = x ∨ r = Reg.vf) [] s t) ∧
    (encode (.addReg x y)).toNat = 0x8004 + x.val * 256 + y.val * 16

/-- R167, R169: the difference wraps at 256, and VF, written last, is 1 exactly when the minuend was strictly greater.
The spec marks the 0 for equal operands as its own decision, D12. -/
def Obligations.SubtractSetsNoBorrowLast : Prop :=
  ∀ (x y : Reg) (s : State),
    Leads (.subReg x y) s (fun t => Advances 2 s t ∧
      (x ≠ Reg.vf → (t.reg x).toNat = ((s.reg x).toNat + 256 - (s.reg y).toNat) % 256) ∧
      t.reg Reg.vf = (if (s.reg x).toNat > (s.reg y).toNat then 1 else 0) ∧
      Unchanged (fun r => r = x ∨ r = Reg.vf) [] s t) ∧
    Leads (.subnReg x y) s (fun t => Advances 2 s t ∧
      (x ≠ Reg.vf → (t.reg x).toNat = ((s.reg y).toNat + 256 - (s.reg x).toNat) % 256) ∧
      t.reg Reg.vf = (if (s.reg y).toNat > (s.reg x).toNat then 1 else 0) ∧
      Unchanged (fun r => r = x ∨ r = Reg.vf) [] s t) ∧
    (encode (.subReg x y)).toNat = 0x8005 + x.val * 256 + y.val * 16 ∧
    (encode (.subnReg x y)).toNat = 0x8007 + x.val * 256 + y.val * 16

/-- R168, R170: a shift by one bit with the shifted-out bit in VF; VF is written first, so with X = F the shift acts
on that bit. Y does not matter. U19 of 93_implementation_defined.md advises a claim to avoid X = F. The spec marks the
value for X = F as its own decision, D10. -/
def Obligations.ShiftsFollowTheStatementOrder : Prop :=
  ∀ (x y : Reg) (s : State),
    Leads (.shrReg x y) s (fun t => Advances 2 s t ∧
      (x ≠ Reg.vf → (t.reg x).toNat = (s.reg x).toNat / 2 ∧ (t.reg Reg.vf).toNat = (s.reg x).toNat % 2) ∧
      (x = Reg.vf → t.reg Reg.vf = 0) ∧ Unchanged (fun r => r = x ∨ r = Reg.vf) [] s t) ∧
    Leads (.shlReg x y) s (fun t => Advances 2 s t ∧
      (x ≠ Reg.vf → (t.reg x).toNat = (s.reg x).toNat * 2 % 256 ∧ (t.reg Reg.vf).toNat = (s.reg x).toNat / 128) ∧
      (x = Reg.vf → t.reg Reg.vf = (if (s.reg x).toNat ≥ 0x80 then 2 else 0)) ∧
      Unchanged (fun r => r = x ∨ r = Reg.vf) [] s t) ∧
    (encode (.shrReg x y)).toNat = 0x8006 + x.val * 256 + y.val * 16 ∧
    (encode (.shlReg x y)).toNat = 0x800E + x.val * 256 + y.val * 16

/-- R173: the table of register aliasing, cell by cell, and its sentence about Y = F. The spec marks the value for X =
F as its own decision, D10. -/
def Obligations.RegisterAliasingTable : Prop :=
  ∀ (x y : Reg) (s : State),
    (y ≠ Reg.vf →
      Leads (.addReg Reg.vf y) s (fun t =>
        t.reg Reg.vf = if (s.reg Reg.vf).toNat + (s.reg y).toNat > 255 then 1 else 0) ∧
      Leads (.subReg Reg.vf y) s (fun t => t.reg Reg.vf = if (s.reg Reg.vf).toNat > (s.reg y).toNat then 1 else 0) ∧
      Leads (.subnReg Reg.vf y) s (fun t => t.reg Reg.vf = if (s.reg y).toNat > (s.reg Reg.vf).toNat then 1 else 0)) ∧
    (x ≠ Reg.vf →
      Leads (.addReg x x) s (fun t => (t.reg x).toNat = 2 * (s.reg x).toNat % 256 ∧
        (t.reg Reg.vf).toNat = (s.reg x).toNat / 128) ∧
      Leads (.subReg x x) s (fun t => t.reg x = 0 ∧ t.reg Reg.vf = 0) ∧
      Leads (.subnReg x x) s (fun t => t.reg x = 0 ∧ t.reg Reg.vf = 0)) ∧
    Leads (.addReg Reg.vf Reg.vf) s (fun t => t.reg Reg.vf = if (s.reg Reg.vf).toNat ≥ 0x80 then 1 else 0) ∧
    Leads (.subReg Reg.vf Reg.vf) s (fun t => t.reg Reg.vf = 0) ∧
    Leads (.subnReg Reg.vf Reg.vf) s (fun t => t.reg Reg.vf = 0) ∧
    Leads (.shrReg Reg.vf y) s (fun t => t.reg Reg.vf = 0) ∧
    Leads (.shlReg Reg.vf y) s (fun t => t.reg Reg.vf = if (s.reg Reg.vf).toNat ≥ 0x80 then 2 else 0) ∧
    (x ≠ Reg.vf →
      Leads (.addReg x Reg.vf) s (fun t => (t.reg x).toNat = ((s.reg x).toNat + (s.reg Reg.vf).toNat) % 256 ∧
        t.reg Reg.vf = if (s.reg x).toNat + (s.reg Reg.vf).toNat > 255 then 1 else 0) ∧
      Leads (.subReg x Reg.vf) s (fun t => (t.reg x).toNat = ((s.reg x).toNat + 256 - (s.reg Reg.vf).toNat) % 256 ∧
        t.reg Reg.vf = if (s.reg x).toNat > (s.reg Reg.vf).toNat then 1 else 0) ∧
      Leads (.subnReg x Reg.vf) s (fun t => (t.reg x).toNat = ((s.reg Reg.vf).toNat + 256 - (s.reg x).toNat) % 256 ∧
        t.reg Reg.vf = if (s.reg Reg.vf).toNat > (s.reg x).toNat then 1 else 0))

/-- R171: `V[X]` gets the draw masked by NN, whatever the draw is; the next RND takes the next draw. The draw's name,
`Config.randomByte s.draws`, is the model's (log 5). -/
def Obligations.RandomByteIsMasked : Prop :=
  ∀ (x : Reg) (nn : Byte) (s : State),
    Leads (.rnd x nn) s (fun t => Advances 2 s t ∧ t.reg x = Config.randomByte s.draws &&& nn ∧
      (nn = 0 → t.reg x = 0) ∧ (∀ k, nn.getLsbD k = false → (t.reg x).getLsbD k = false) ∧
      t.draws = s.draws + 1 ∧ Unchanged (· = x) [.draws] s t) ∧
    (encode (.rnd x nn)).toNat = 0xC000 + x.val * 256 + nn.toNat

/-! ### Index and memory instructions (43_index_memory.md) -/

/-- R200 to R202: I gets NNN, `(I + V[X]) mod 65536`, or `5 * V[X]` unmasked; nothing else changes, VF included. The
spec marks the wrap of I and the unchanged VF of FX1E as its own decision, D21. -/
def Obligations.IndexRegisterWrites : Prop :=
  ∀ (x : Reg) (nnn : Addr12) (s : State),
    Leads (.ldI nnn) s (fun t => Advances 2 s t ∧ t.i.toNat = nnn.toNat ∧ Unchanged noReg [.i] s t) ∧
    Leads (.addI x) s (fun t => Advances 2 s t ∧ t.i.toNat = (s.i.toNat + (s.reg x).toNat) % 65536 ∧
      Unchanged noReg [.i] s t) ∧
    Leads (.ldF x) s (fun t => Advances 2 s t ∧ t.i.toNat = 5 * (s.reg x).toNat ∧ Unchanged noReg [.i] s t) ∧
    (encode (.ldI nnn)).toNat = 0xA000 + nnn.toNat ∧
    (encode (.addI x)).toNat = 0xF01E + x.val * 256 ∧
    (encode (.ldF x)).toNat = 0xF029 + x.val * 256

/-- R203: the three digits go to I, I + 1, I + 2 and every other byte reads as before; when I + 2 is out of range
nothing is written and the first such address is recorded. The spec marks what a faulting step leaves and records as
its own decision, D8. That the fault is a next state is the model's choice, and that the recorded word is the
instruction's encoding is deduced (log 1). -/
def Obligations.BcdStoresThreeDigits : Prop :=
  ∀ (x : Reg) (s : State),
    (indexAddr s 2 < 4096 →
      Leads (.ldB x) s (fun t => Advances 2 s t ∧
        (t.mem.read (indexAddr s 0)).toNat = (s.reg x).toNat / 100 ∧
        (t.mem.read (indexAddr s 1)).toNat = (s.reg x).toNat / 10 % 10 ∧
        (t.mem.read (indexAddr s 2)).toNat = (s.reg x).toNat % 10 ∧
        (∀ a, a < indexAddr s 0 ∨ indexAddr s 2 < a → t.mem.read a = s.mem.read a) ∧
        Unchanged noReg [.memory] s t)) ∧
    (4096 ≤ indexAddr s 2 → Raises (.ldB x) s .outOfBoundsAccess (some (max (indexAddr s 0) 4096))) ∧
    (encode (.ldB x)).toNat = 0xF033 + x.val * 256

/-- R204: V0 to VX go to I up, in order, and every other byte reads as before, I itself unchanged; when I + X is out
of range nothing is written and the first such address is recorded. The spec marks that what a row does not name is
unchanged and what a faulting step leaves and records as its own decisions, D11 and D8. That the fault is a next state
is the model's choice, and that the recorded word is the instruction's encoding is deduced (log 1). -/
def Obligations.BlockStoreWritesV0ToVx : Prop :=
  ∀ (x : Reg) (s : State),
    (indexAddr s x < 4096 →
      Leads (.ldStore x) s (fun t => Advances 2 s t ∧
        (∀ k : Reg, k ≤ x → t.mem.read (indexAddr s k) = s.reg k) ∧
        (∀ a, a < indexAddr s 0 ∨ indexAddr s x < a → t.mem.read a = s.mem.read a) ∧
        Unchanged noReg [.memory] s t)) ∧
    (4096 ≤ indexAddr s x → Raises (.ldStore x) s .outOfBoundsAccess (some (max (indexAddr s 0) 4096))) ∧
    (encode (.ldStore x)).toNat = 0xF055 + x.val * 256

/-- R205: V0 to VX get the bytes at I up, in order, and the registers above X, I and memory are unchanged; when I + X
is out of range no register changes and the first such address is recorded. The spec marks that what a row does not
name is unchanged and what a faulting step leaves and records as its own decisions, D11 and D8. That the fault is a
next state is the model's choice, and that the recorded word is the instruction's encoding is deduced (log 1). -/
def Obligations.BlockLoadReadsV0ToVx : Prop :=
  ∀ (x : Reg) (s : State),
    (indexAddr s x < 4096 →
      Leads (.ldLoad x) s (fun t => Advances 2 s t ∧
        (∀ k : Reg, k ≤ x → t.reg k = s.mem.read (indexAddr s k)) ∧ Unchanged (· ≤ x) [] s t)) ∧
    (4096 ≤ indexAddr s x → Raises (.ldLoad x) s .outOfBoundsAccess (some (max (indexAddr s 0) 4096))) ∧
    (encode (.ldLoad x)).toNat = 0xF065 + x.val * 256

/-- R65: a fetch after a block store reads the stored bytes as the instruction word. -/
def Obligations.StoredBytesAreFetched : Prop :=
  ∀ (x k k' : Reg) (s t : State), k' ≤ x → k'.val = k.val + 1 → indexAddr s x < 4096 →
    exec (.ldStore x) s = .next t →
    ∃ w, fetchWord t.mem (indexAddr s k) = .ok w ∧ w.toNat = (s.reg k).toNat * 256 + (s.reg k').toNat

/-! ### Control transfer (41_control_flow.md) -/

/-- R133 to R136, R138: the four register skips pass over one more slot exactly on their condition, and change nothing
but PC. -/
def Obligations.RegisterSkipsFollowTheirCondition : Prop :=
  ∀ (x y : Reg) (nn : Byte) (s : State),
    Leads (.seImm x nn) s (SkipsIf (s.reg x = nn) s) ∧
    Leads (.sneImm x nn) s (SkipsIf (s.reg x ≠ nn) s) ∧
    Leads (.seReg x y) s (SkipsIf (s.reg x = s.reg y) s) ∧
    Leads (.sneReg x y) s (SkipsIf (s.reg x ≠ s.reg y) s) ∧
    (encode (.seImm x nn)).toNat = 0x3000 + x.val * 256 + nn.toNat ∧
    (encode (.sneImm x nn)).toNat = 0x4000 + x.val * 256 + nn.toNat ∧
    (encode (.seReg x y)).toNat = 0x5000 + x.val * 256 + y.val * 16 ∧
    (encode (.sneReg x y)).toNat = 0x9000 + x.val * 256 + y.val * 16

/-- R131, R137: PC gets NNN, or V0 + NNN unreduced by the memory size; nothing else changes. -/
def Obligations.JumpsReplacePc : Prop :=
  ∀ (nnn : Addr12) (s : State),
    Leads (.jp nnn) s (fun t => GoesTo nnn.toNat s t ∧ Unchanged noReg [] s t) ∧
    Leads (.jpV0 nnn) s (fun t => GoesTo (((s.reg 0).toNat + nnn.toNat) % 65536) s t ∧ Unchanged noReg [] s t) ∧
    (encode (.jp nnn)).toNat = 0x1000 + nnn.toNat ∧
    (encode (.jpV0 nnn)).toNat = 0xB000 + nnn.toNat

/-- R132: CALL pushes the address after itself and jumps; with 16 entries held it raises `StackOverflow`. The spec
marks the bound of 16 entries and what a faulting step leaves and records as its own decisions, D3 and D8. That the
fault is a next state is the model's choice, and that the recorded word is the instruction's encoding is deduced (log
1). -/
def Obligations.CallPushesTheReturnAddress : Prop :=
  ∀ (nnn : Addr12) (s : State),
    (s.sp.val < 16 →
      Leads (.call nnn) s (fun t => GoesTo nnn.toNat s t ∧ t.sp.val = s.sp.val + 1 ∧
        (∀ j : Fin 16, j.val = s.sp.val → (t.stack[j]).toNat = (s.pc.toNat + 2) % 65536) ∧
        (∀ j : Fin 16, j.val ≠ s.sp.val → t.stack[j] = s.stack[j]) ∧ Unchanged noReg [.stack] s t)) ∧
    (s.sp.val = 16 → Raises (.call nnn) s .stackOverflow none) ∧
    (encode (.call nnn)).toNat = 0x2000 + nnn.toNat

/-- R130: RET pops the top entry into PC as it is; on an empty stack it raises `StackUnderflow`. The spec marks what a
faulting step leaves and records as its own decision, D8. That the fault is a next state is the model's choice, and
that the recorded word is the instruction's encoding is deduced (log 1). -/
def Obligations.ReturnPopsTheTopEntry : Prop :=
  ∀ s : State,
    (∀ j : Fin 16, s.sp.val = j.val + 1 →
      Leads .ret s (fun t => GoesTo (s.stack[j]).toNat s t ∧ t.sp.val = j.val ∧ t.stack = s.stack ∧
        Unchanged noReg [.stack] s t)) ∧
    (s.sp.val = 0 → Raises .ret s .stackUnderflow none) ∧
    (encode .ret).toNat = 0x00EE

/-- R132, R34: the RET that matches a CALL resumes at the instruction after the CALL, at the CALL's own stack depth,
from any state `u` at the depth the CALL left whose entries below that depth are the CALL's. Stale entries may differ:
a call nested in the routine leaves one. -/
def Obligations.ReturnResumesAfterTheCall : Prop :=
  ∀ (nnn : Addr12) (s t u : State), s.sp.val < 16 → exec (.call nnn) s = .next t →
    u.sp = t.sp → (∀ j : Fin 16, j.val < t.sp.val → u.stack[j] = t.stack[j]) →
    Leads .ret u (fun v => GoesTo ((s.pc.toNat + 2) % 65536) u v ∧ v.sp = s.sp)

/-! ### Keypad and timers (44_keys_timers.md; 60_exceptions.md R269 to R272) -/

/-- R230 to R232: the key tested is the low nibble of `V[X]`, its flag the host's at this step. U13 of
93_implementation_defined.md advises a claim to take `V[X] < 16`. The spec marks the key for V[X] of 16 and above as
its own decision, D14. -/
def Obligations.KeySkipsTestTheLowNibble : Prop :=
  ∀ (x : Reg) (s : State),
    Leads (.skp x) s (SkipsIf (s.keyDown.toList[(s.reg x).toNat % 16]? = some true) s) ∧
    Leads (.sknp x) s (SkipsIf (s.keyDown.toList[(s.reg x).toNat % 16]? = some false) s) ∧
    (encode (.skp x)).toNat = 0xE09E + x.val * 256 ∧
    (encode (.sknp x)).toNat = 0xE0A1 + x.val * 256

/-- R233 to R235: DT is read into `V[X]`, or DT or ST is set from it. -/
def Obligations.TimerInstructionsMoveOneByte : Prop :=
  ∀ (x : Reg) (s : State),
    Leads (.ldVxDt x) s (WritesOnly x s.dt s) ∧
    Leads (.ldDt x) s (fun t => Advances 2 s t ∧ t.dt = s.reg x ∧ Unchanged noReg [.dt] s t) ∧
    Leads (.ldSt x) s (fun t => Advances 2 s t ∧ t.st = s.reg x ∧ soundValue t = s.reg x ∧ Unchanged noReg [.st] s t) ∧
    (encode (.ldVxDt x)).toNat = 0xF007 + x.val * 256 ∧
    (encode (.ldDt x)).toNat = 0xF015 + x.val * 256 ∧
    (encode (.ldSt x)).toNat = 0xF018 + x.val * 256

/-- R236: FX0A ends in `WAITKEY(X)` with PC past it and nothing else changed, `V[X]` included; there `step` is not
enabled and `tick` stays enabled. The spec marks how the wait begins and ends as its own decision, D15. -/
def Obligations.KeyInstructionEntersTheWait : Prop :=
  ∀ (x : Reg) (s : State),
    Leads (.ldVxK x) s (fun t => t.mode = .waitKey x ∧ t.pc.toNat = (s.pc.toNat + 2) % 65536 ∧
      Unchanged noReg [] s t) ∧
    (∀ t, exec (.ldVxK x) s = .next t →
      performMove .tick t = .next (tick t) ∧ ∀ u, performMove .step t ≠ .next u) ∧
    (encode (.ldVxK x)).toNat = 0xF00A + x.val * 256

/-- However often the host calls `Execute()` with no other move, a wait goes on unchanged: it never times out and no key
is made up. That such a call is a step that changes nothing is the model's choice (log 3). -/
def Obligations.WaitWithoutAKeyNeverEnds : Prop :=
  ∀ (x : Reg) (s : State) (n : Nat), s.mode = .waitKey x → s.schedule = [] →
    Host.Core.run Sys2Proof.core n s = .next s

/-- R237: a delivery writes `V[x]` of the waiting FX0A and resumes; it changes nothing else, and it is enabled in
`WAITKEY` only. The spec marks how the wait begins and ends as its own decision, D15. -/
def Obligations.KeyDeliveryEndsTheWait : Prop :=
  ∀ (k : Key) (s : State),
    (∀ x, s.mode = .waitKey x → ∃ t, performMove (.keyDeliver k) s = .next t ∧ t.mode = .run ∧ t.pc = s.pc ∧
      (t.reg x).toNat = k.val ∧ Unchanged (· = x) [] s t) ∧
    ((∀ x, s.mode ≠ .waitKey x) → ∀ t, performMove (.keyDeliver k) s ≠ .next t)

/-- R269, R263: a tick takes 1 from each timer that is not zero, never wraps, and changes nothing else, PC and the
mode included; it is enabled in every mode but `FAULT`. The spec marks which moves FAULT enables as its own decision,
D19. -/
def Obligations.TickCountsDownToZero : Prop :=
  ∀ s : State,
    ((∀ r, s.mode ≠ .fault r) → ∃ t, performMove .tick s = .next t ∧
      t.dt.toNat = s.dt.toNat - 1 ∧ t.st.toNat = s.st.toNat - 1 ∧ t.pc = s.pc ∧ t.mode = s.mode ∧
      Unchanged noReg [.dt, .st] s t) ∧
    ((∃ r, s.mode = .fault r) → ∀ t, performMove .tick s ≠ .next t)

/-- R61: a tick before an instruction that does not name a timer gives the same state as the tick after it, the
instruction's fault included. That the fault is a next state is the model's choice (log 1). -/
def Obligations.TickCommutesWithOtherInstructions : Prop :=
  ∀ (i : Instr) (s t : State), (∀ x, i ≠ .ldVxDt x) → (∀ x, i ≠ .ldDt x) → (∀ x, i ≠ .ldSt x) →
    exec i s = .next t → exec i (tick s) = .next (tick t)

/-- R30, R272: no instruction but EX9E and EXA1 sees the key flags. -/
def Obligations.KeyFlagsReachOnlyTheKeySkips : Prop :=
  ∀ (i : Instr) (f : Vector Bool 16) (s t : State), (∀ x, i ≠ .skp x) → (∀ x, i ≠ .sknp x) →
    exec i s = .next t → exec i { s with keyDown := f } = .next { t with keyDown := f }

/-! ### The display (40_display.md) -/

/-- R110: every pixel goes OFF and nothing else changes, VF included. -/
def Obligations.ClsClearsEveryPixel : Prop :=
  ∀ s : State,
    Leads .cls s (fun t => Advances 2 s t ∧ (∀ x y, pixel t.disp x y = false) ∧
      (∀ (x : Fin 64) (y : Fin 32), dispPixel t x y = false) ∧ Unchanged noReg [.display] s t) ∧
    (encode .cls).toNat = 0x00E0

/-- R111, R112: when every byte DXYN reads is in range (rows `0 .. min(N-1, 32-y0)`), each pixel of the grid is XORed
with the sprite bit over it, the origin wrapped and the body clipped, and VF is 1 exactly when a pixel went from ON to OFF.
The origin is read before VF is written, so X = F and Y = F are not special. -/
def Obligations.DrawXorsTheClippedSprite : Prop :=
  ∀ (x y : Reg) (n : Nat) (s : State),
    ((∀ row, row < n → (s.reg y).toNat % 32 + row ≤ 32 → indexAddr s row < 4096) →
      Leads (.drw x y n) s (fun t => Advances 2 s t ∧
        (∀ a b, a < 64 → b < 32 → pixel t.disp a b = (pixel s.disp a b ^^
          spriteBit s.mem (indexAddr s 0) ((s.reg x).toNat % 64) ((s.reg y).toNat % 32) n a b)) ∧
        ((∃ a b, a < 64 ∧ b < 32 ∧ pixel s.disp a b = true ∧ pixel t.disp a b = false) → t.reg Reg.vf = 1) ∧
        ((∀ a b, a < 64 → b < 32 → pixel s.disp a b = true → pixel t.disp a b = true) → t.reg Reg.vf = 0) ∧
        Unchanged (· = Reg.vf) [.display] s t)) ∧
    (n < 16 → (encode (.drw x y n)).toNat = 0xD000 + x.val * 256 + y.val * 16 + n)

/-- R111: when a byte DXYN reads is out of range, the first clipped row's byte included, no pixel and no register
changes and the first such address is recorded. The spec marks the read of the first clipped row's byte and what a
faulting step leaves and records as its own decisions, D13 and D8. That the fault is a next state is the model's
choice, and that the recorded word is the instruction's encoding is deduced (log 1). -/
def Obligations.DrawFaultsOnAnUnreadableRow : Prop :=
  ∀ (x y : Reg) (n row : Nat) (s : State), row < n → (s.reg y).toNat % 32 + row ≤ 32 → 4096 ≤ indexAddr s row →
    Raises (.drw x y n) s .outOfBoundsAccess (some (max (indexAddr s 0) 4096))

/-- R111: drawing the same sprite twice at the same origin restores the buffer; from an all-OFF buffer the second draw
sets VF to 1 if and only if the sprite lays a 1 bit on the grid. -/
def Obligations.DrawingTwiceRestoresTheBuffer : Prop :=
  ∀ (x y : Reg) (n : Nat) (s t u : State), exec (.drw x y n) s = .next t → exec (.drw x y n) t = .next u →
    t.mode = .run → u.mode = .run →
    (t.reg x).toNat % 64 = (s.reg x).toNat % 64 → (t.reg y).toNat % 32 = (s.reg y).toNat % 32 →
    u.disp = s.disp ∧
    ((∀ a b, pixel s.disp a b = false) → u.reg Reg.vf =
      if ∃ (a : Fin 64) (b : Fin 32),
        spriteBit s.mem (indexAddr s 0) ((s.reg x).toNat % 64) ((s.reg y).toNat % 32) n a b = true then 1 else 0)

/-! ### Reset and the loaders (70_reset_and_hazards.md) -/

/-- R35, R300, R301: every piece of core state after reset, and after the `reset` move in any mode, at the value of
the spec's table. What the host holds is not core state and is not spoken of. The spec marks every value but PC's as
its own decision, D9. -/
def Obligations.ResetLeavesTheTableOfResetValues : Prop :=
  ∀ s t : State, (t = State.reset ∨ performMove .reset s = .next t) →
    t.pc.toNat = 0x200 ∧ (∀ r, t.reg r = 0) ∧ t.i = 0 ∧ t.dt = 0 ∧ t.st = 0 ∧ t.sp = 0 ∧
    (∀ j : Fin 16, t.stack[j] = 0) ∧ (∀ x y, pixel t.disp x y = false) ∧ (∀ a, t.mem.read a = 0) ∧ t.mode = .init

/-- The `reset` move is performed in every mode. -/
def Obligations.ResetIsEnabledInEveryMode : Prop :=
  ∀ s : State, ∃ t, performMove .reset s = .next t ∧ t.mode = .init ∧ t.keyDown = s.keyDown ∧ t.schedule = s.schedule

/-- R302: in `INIT` the 80 bytes go to addresses 0 to 79 and nothing else changes. The spec marks that the loaders run
in INIT only as its own decision, D20. -/
def Obligations.LoadFontWritesEightyBytes : Prop :=
  ∀ (b : Vector Byte 80) (s : State), s.mode = .init → ∃ t, performMove (.loadFont b) s = .next t ∧
    (∀ j : Fin 80, t.mem.read j.val = b[j]) ∧ (∀ a, 80 ≤ a → t.mem.read a = s.mem.read a) ∧
    t.mode = .init ∧ t.pc = s.pc ∧ Unchanged noReg [.memory] s t

/-- R303: in `INIT` an image of at most 3584 bytes goes to 0x200 up and nothing else changes; a longer one changes
nothing but the mode, which records `RomLoadError`. The spec marks what a ROM too long leaves as its own decision,
D28. That the fault is a next state is the model's choice (log 1). -/
def Obligations.LoadRomIsAllOrNothing : Prop :=
  ∀ (b : List Byte) (s : State), s.mode = .init →
    (b.length ≤ 3584 → ∃ t, performMove (.loadRom b) s = .next t ∧
      (∀ j (h : j < b.length), t.mem.read (0x200 + j) = b[j]) ∧
      (∀ a, a < 0x200 ∨ 0x200 + b.length ≤ a → t.mem.read a = s.mem.read a) ∧
      t.mode = .init ∧ t.pc = s.pc ∧ Unchanged noReg [.memory] s t) ∧
    (3584 < b.length → performMove (.loadRom b) s = .next { s with
      mode := .fault { kind := .romLoadError, pc := none, word := none, addr := none } })

/-- R304: the order of the two loaders does not matter. -/
def Obligations.LoaderOrderDoesNotMatter : Prop :=
  ∀ (font : Vector Byte 80) (rom : List Byte) (s : State), s.memInv → s.mode = .init → rom.length ≤ 3584 →
    ∃ t, runMoves [.loadFont font, .loadRom rom] s = .next t ∧ runMoves [.loadRom rom, .loadFont font] s = .next t

/-! ### Invariants and whole-machine rules -/

/-- Memory keeps its canonical form, and lists nothing outside the address space, over every step, whatever the host
schedules. -/
def Obligations.StepKeepsMemoryCanonical : Prop :=
  ∀ s t : State, s.memInv → step s = .next t → t.memInv

/-- R24: PC never holds more than 0x10FE and a stack entry never more than 0x1000, over every step. -/
def Obligations.StepKeepsPcBounded : Prop :=
  ∀ s t : State, s.controlInv → step s = .next t → t.controlInv

/-- R32, R260, R261: over every step, a recorded fault has the fields and the numeric code of its kind. The spec marks
what a faulting step leaves and records and the numeric codes as its own decisions, D8 and D24. That the fault is a
next state is the model's choice (log 1). -/
def Obligations.StepKeepsFaultRecordShape : Prop :=
  ∀ s t : State, s.recordInv → step s = .next t → t.recordInv

/-- The state after reset meets the three invariants. The spec marks every value but PC's as its own decision, D9. -/
def Obligations.ResetMeetsTheInvariants : Prop :=
  State.reset.memInv ∧ State.reset.controlInv ∧ State.reset.recordInv

/-- R20, R21, R25 to R29, R270: no instruction, of all 34, changes a register or another part of the state but those
its row names. Of the part an instruction writes, the rest is unchanged too: the bytes outside I to I + 2 for FX33 and
outside I to I + X for FX55, the stack entries but the one at the old SP for 2NNN, all of them for 00EE, the pixels
under no 1 bit of the sprite for DXYN. In particular no instruction ticks a timer, and none but the six flag writers
changes a VF it does not name as a destination. The spec marks that what a row does not name is unchanged as its own
decision, D11. -/
def Obligations.EveryInstructionKeepsItsFrame : Prop :=
  ∀ (i : Instr) (s t : State), exec i s = .next t → Unchanged (writesReg i) (writtenParts i) s t ∧
    (∀ x, i = .ldB x → ∀ a, a < indexAddr s 0 ∨ indexAddr s 2 < a → t.mem.read a = s.mem.read a) ∧
    (∀ x : Reg, i = .ldStore x → ∀ a, a < indexAddr s 0 ∨ indexAddr s x < a → t.mem.read a = s.mem.read a) ∧
    (∀ nnn, i = .call nnn → ∀ j : Fin 16, j.val ≠ s.sp.val → t.stack[j] = s.stack[j]) ∧
    (i = .ret → t.stack = s.stack) ∧
    (∀ x y n, i = .drw x y n → ∀ a b,
      spriteBit s.mem (indexAddr s 0) ((s.reg x).toNat % 64) ((s.reg y).toNat % 32) n a b = false →
      pixel t.disp a b = pixel s.disp a b)

/-- R22: an instruction that does not name VF does not read it: from two states that differ in VF alone, it leaves two
states that differ in VF at most. -/
def Obligations.FlagIsReadOnlyByName : Prop :=
  ∀ (i : Instr) (b : Byte) (s t : State), ¬ namesVf i → exec i s = .next t →
    ∃ t', exec i (s.setReg Reg.vf b) = .next t' ∧ t'.setReg Reg.vf 0 = t.setReg Reg.vf 0

/-- R277: `WAITKEY` is entered by a step that runs FX0A and by nothing else, and left by a delivery or a `reset` only;
until then nothing changes but the timers and what the host holds. -/
def Obligations.WaitIsEnteredByKeyInstructionOnly : Prop :=
  ∀ (m : HostMove) (s t : State) (x : Reg), performMove m s = .next t →
    (t.mode = .waitKey x → s.mode ≠ .waitKey x →
      m = .step ∧ ∃ w, fetchWord s.mem s.pc.toNat = .ok w ∧ w.toNat = 0xF00A + x.val * 256) ∧
    (s.mode = .waitKey x →
      (∃ k, m = .keyDeliver k ∧ t.mode = .run) ∨ (m = .reset ∧ t.mode = .init) ∨
      (t.mode = .waitKey x ∧ t.pc = s.pc ∧ t.v = s.v ∧ t.i = s.i ∧ t.sp = s.sp ∧ t.stack = s.stack ∧ t.mem = s.mem ∧
        t.disp = s.disp ∧ ((t.dt = s.dt ∧ t.st = s.st) ∨ m = .tick)))

/-- R34: stack entries at or above the stack depth are never observed: two states that differ in them alone make steps
that end alike, in states that again differ in them alone. -/
def Obligations.StaleStackEntriesAreNeverObserved : Prop :=
  ∀ s s' t : State, SameButStale s s' → step s = .next t → ∃ t', step s' = .next t' ∧ SameButStale t t'
end

