-- ==== Sys2Proof/Laws/State.lean ====
section
/-! SUPPORT. One lemma per field per update of State, true by rfl, and the laws of register access. -/

namespace Sys2Proof.Machine

open Sys2Proof

section Updates
variable (s : State) (r : Reg) (b : Byte) (c : Bool) (k : FaultKind) (w : Option Word) (a : Option Nat)

@[simp] theorem setReg_pc : (s.setReg r b).pc = s.pc := rfl
@[simp] theorem setReg_i : (s.setReg r b).i = s.i := rfl
@[simp] theorem setReg_dt : (s.setReg r b).dt = s.dt := rfl
@[simp] theorem setReg_st : (s.setReg r b).st = s.st := rfl
@[simp] theorem setReg_sp : (s.setReg r b).sp = s.sp := rfl
@[simp] theorem setReg_stack : (s.setReg r b).stack = s.stack := rfl
@[simp] theorem setReg_mem : (s.setReg r b).mem = s.mem := rfl
@[simp] theorem setReg_disp : (s.setReg r b).disp = s.disp := rfl
@[simp] theorem setReg_mode : (s.setReg r b).mode = s.mode := rfl
@[simp] theorem setReg_keyDown : (s.setReg r b).keyDown = s.keyDown := rfl
@[simp] theorem setReg_draws : (s.setReg r b).draws = s.draws := rfl
@[simp] theorem setReg_schedule : (s.setReg r b).schedule = s.schedule := rfl

@[simp] theorem afterFetch_v : s.afterFetch.v = s.v := rfl
@[simp] theorem afterFetch_pc : s.afterFetch.pc = s.pc + 2 := rfl
@[simp] theorem afterFetch_i : s.afterFetch.i = s.i := rfl
@[simp] theorem afterFetch_dt : s.afterFetch.dt = s.dt := rfl
@[simp] theorem afterFetch_st : s.afterFetch.st = s.st := rfl
@[simp] theorem afterFetch_sp : s.afterFetch.sp = s.sp := rfl
@[simp] theorem afterFetch_stack : s.afterFetch.stack = s.stack := rfl
@[simp] theorem afterFetch_mem : s.afterFetch.mem = s.mem := rfl
@[simp] theorem afterFetch_disp : s.afterFetch.disp = s.disp := rfl
@[simp] theorem afterFetch_mode : s.afterFetch.mode = .run := rfl
@[simp] theorem afterFetch_keyDown : s.afterFetch.keyDown = s.keyDown := rfl
@[simp] theorem afterFetch_draws : s.afterFetch.draws = s.draws := rfl
@[simp] theorem afterFetch_schedule : s.afterFetch.schedule = s.schedule := rfl

@[simp] theorem skipWhen_v : (s.skipWhen c).v = s.v := rfl
@[simp] theorem skipWhen_pc : (s.skipWhen c).pc = if c then s.pc + 2 else s.pc := rfl
@[simp] theorem skipWhen_i : (s.skipWhen c).i = s.i := rfl
@[simp] theorem skipWhen_dt : (s.skipWhen c).dt = s.dt := rfl
@[simp] theorem skipWhen_st : (s.skipWhen c).st = s.st := rfl
@[simp] theorem skipWhen_sp : (s.skipWhen c).sp = s.sp := rfl
@[simp] theorem skipWhen_stack : (s.skipWhen c).stack = s.stack := rfl
@[simp] theorem skipWhen_mem : (s.skipWhen c).mem = s.mem := rfl
@[simp] theorem skipWhen_disp : (s.skipWhen c).disp = s.disp := rfl
@[simp] theorem skipWhen_mode : (s.skipWhen c).mode = s.mode := rfl
@[simp] theorem skipWhen_keyDown : (s.skipWhen c).keyDown = s.keyDown := rfl
@[simp] theorem skipWhen_draws : (s.skipWhen c).draws = s.draws := rfl
@[simp] theorem skipWhen_schedule : (s.skipWhen c).schedule = s.schedule := rfl

@[simp] theorem raise_v : (raise k w a s).v = s.v := rfl
@[simp] theorem raise_pc : (raise k w a s).pc = s.pc := rfl
@[simp] theorem raise_i : (raise k w a s).i = s.i := rfl
@[simp] theorem raise_dt : (raise k w a s).dt = s.dt := rfl
@[simp] theorem raise_st : (raise k w a s).st = s.st := rfl
@[simp] theorem raise_sp : (raise k w a s).sp = s.sp := rfl
@[simp] theorem raise_stack : (raise k w a s).stack = s.stack := rfl
@[simp] theorem raise_mem : (raise k w a s).mem = s.mem := rfl
@[simp] theorem raise_disp : (raise k w a s).disp = s.disp := rfl
@[simp] theorem raise_mode : (raise k w a s).mode = .fault ⟨k, some s.pc, w, a⟩ := rfl
@[simp] theorem raise_keyDown : (raise k w a s).keyDown = s.keyDown := rfl
@[simp] theorem raise_draws : (raise k w a s).draws = s.draws := rfl
@[simp] theorem raise_schedule : (raise k w a s).schedule = s.schedule := rfl

end Updates

section Timers
variable (s : State)

@[simp] theorem tick_v : (tick s).v = s.v := rfl
@[simp] theorem tick_pc : (tick s).pc = s.pc := rfl
@[simp] theorem tick_i : (tick s).i = s.i := rfl
@[simp] theorem tick_dt : (tick s).dt = countDown s.dt := rfl
@[simp] theorem tick_st : (tick s).st = countDown s.st := rfl
@[simp] theorem tick_sp : (tick s).sp = s.sp := rfl
@[simp] theorem tick_stack : (tick s).stack = s.stack := rfl
@[simp] theorem tick_mem : (tick s).mem = s.mem := rfl
@[simp] theorem tick_disp : (tick s).disp = s.disp := rfl
@[simp] theorem tick_mode : (tick s).mode = s.mode := rfl
@[simp] theorem tick_keyDown : (tick s).keyDown = s.keyDown := rfl
@[simp] theorem tick_draws : (tick s).draws = s.draws := rfl
@[simp] theorem tick_schedule : (tick s).schedule = s.schedule := rfl

end Timers

/-! ### Registers -/

@[simp] theorem reg_afterFetch (s : State) (r : Reg) : s.afterFetch.reg r = s.reg r := rfl
@[simp] theorem reg_skipWhen (s : State) (c : Bool) (r : Reg) : (s.skipWhen c).reg r = s.reg r := rfl
@[simp] theorem reg_raise (s : State) (k : FaultKind) (w : Option Word) (a : Option Nat) (r : Reg) :
    (raise k w a s).reg r = s.reg r := rfl

/-- A state whose register file is `s`'s reads its registers as `s` does. -/
theorem reg_of_v_eq {s t : State} (h : t.v = s.v) (r : Reg) : t.reg r = s.reg r := by
  simp [State.reg, h]

/-- Reading a register after a register write. -/
theorem reg_setReg (s : State) (r q : Reg) (b : Byte) :
    (s.setReg r b).reg q = if q = r then b else s.reg q := by
  simp only [State.reg, State.setReg, Fin.getElem_fin]
  rw [Vector.getElem_set]
  by_cases h : q = r
  · simp [h]
  · rw [if_neg (fun hv => h (Fin.ext hv.symm)), if_neg h]

@[simp] theorem reg_setReg_same (s : State) (r : Reg) (b : Byte) : (s.setReg r b).reg r = b := by
  simp [reg_setReg]

/-- A write to another register does not change what a register reads. -/
theorem reg_setReg_other (s : State) {r q : Reg} (b : Byte) (h : q ≠ r) : (s.setReg r b).reg q = s.reg q := by
  simp [reg_setReg, h]

section SetRegsFrom

/-- A block write of registers changes nothing but the register file. -/
theorem setRegsFrom_eq_withV (bs : List Byte) : ∀ (s : State) (r : Nat),
    s.setRegsFrom r bs = { s with v := (s.setRegsFrom r bs).v } := by
  induction bs with
  | nil => intro s r; rfl
  | cons b rest ih =>
    intro s r
    unfold State.setRegsFrom
    split
    · rw [ih]; rfl
    · rfl

/-- The register file a block write leaves depends on the register file alone. -/
theorem setRegsFrom_v_congr (bs : List Byte) : ∀ {s t : State} (r : Nat), t.v = s.v →
    (t.setRegsFrom r bs).v = (s.setRegsFrom r bs).v := by
  induction bs with
  | nil => intro s t r h; exact h
  | cons b rest ih =>
    intro s t r h
    unfold State.setRegsFrom
    split
    · exact ih _ (by simp [State.setReg, h])
    · exact h

/-- Reading a register after a block write from `r` on. -/
theorem reg_setRegsFrom (bs : List Byte) : ∀ (s : State) (r : Nat) (q : Reg),
    (s.setRegsFrom r bs).reg q = if r ≤ q.val then (bs[q.val - r]?).getD (s.reg q) else s.reg q := by
  induction bs with
  | nil => intro s r q; simp [State.setRegsFrom]
  | cons b rest ih =>
    intro s r q
    unfold State.setRegsFrom
    split
    · rename_i h
      rw [ih, reg_setReg]
      by_cases hq : q = ⟨r, h⟩
      · subst hq; simp
      · have hne : q.val ≠ r := fun hv => hq (Fin.ext hv)
        by_cases hr : r ≤ q.val
        · have e : q.val - r = (q.val - (r + 1)) + 1 := by omega
          have h1 : r + 1 ≤ q.val := by omega
          simp [hr, h1, hq, e]
        · have h1 : ¬ r + 1 ≤ q.val := by omega
          simp [hr, h1, hq]
    · rename_i h
      have : ¬ r ≤ q.val := by have := q.isLt; omega
      simp [this]

end SetRegsFrom

end Sys2Proof.Machine
end

