-- ==== Sys2Proof/Laws/Memory.lean ====
section
/-! SUPPORT. The laws of memory: read after write, the canonical form, and what a sequence of accesses answers. -/

namespace Sys2Proof.Machine

open Sys2Proof

/-! ### Read after write -/

theorem readCells_eraseCell (a b : Nat) (l : List Host.Cell) :
    readCells b (eraseCell a l) = if b = a then 0 else readCells b l := by
  induction l with
  | nil => simp [eraseCell, readCells]
  | cons c rest ih =>
    obtain ⟨d, w⟩ := c
    by_cases h : a = d
    · subst h
      by_cases hb : b = a
      · subst hb; simpa [eraseCell] using ih
      · simp [eraseCell, readCells, ih, hb]
    · by_cases hb : b = d
      · subst hb; simp [eraseCell, readCells, h, Ne.symm h]
      · simp [eraseCell, readCells, h, hb, ih]

theorem readCells_insertCell (a b : Nat) (v : Byte) (l : List Host.Cell) (h : readCells a l = 0 ∧ ∀ c ∈ l, c.1 ≠ a) :
    readCells b (insertCell a v l) = if b = a then v else readCells b l := by
  obtain ⟨-, h⟩ := h
  induction l with
  | nil => simp [insertCell, readCells]
  | cons c rest ih =>
    obtain ⟨d, w⟩ := c
    have hd : d ≠ a := h (d, w) (by simp)
    have ih' := ih (fun c hc => h c (by simp [hc]))
    unfold insertCell
    split
    · simp [readCells]
    · by_cases hb : b = d
      · subst hb; simp [readCells, hd]
      · simp [readCells, hb, ih']

theorem eraseCell_ne (a : Nat) (l : List Host.Cell) : ∀ c ∈ eraseCell a l, c.1 ≠ a := by
  induction l with
  | nil => simp [eraseCell]
  | cons c rest ih =>
    obtain ⟨d, w⟩ := c
    unfold eraseCell
    split
    · exact ih
    · rename_i h
      intro c hc
      rcases List.mem_cons.1 hc with rfl | hc
      · exact fun e => h e.symm
      · exact ih c hc

/-- A read after a write to the same address gives the value written, and to another address what it gave before. -/
theorem Memory.read_write (m : Memory) (a b : Nat) (v : Byte) :
    (m.write a v).read b = if b = a then v else m.read b := by
  unfold Memory.read Memory.write
  by_cases hv : v = 0
  · simp [hv, readCells_eraseCell]
  · simp only [hv, if_false]
    rw [readCells_insertCell _ _ _ _ ⟨by simp [readCells_eraseCell], eraseCell_ne a _⟩, readCells_eraseCell]
    by_cases hb : b = a <;> simp [hb]

/-- A read after a block of writes. -/
theorem Memory.read_writeBytes (bs : List Byte) : ∀ (m : Memory) (a b : Nat),
    (m.writeBytes a bs).read b = if a ≤ b then (bs[b - a]?).getD (m.read b) else m.read b := by
  induction bs with
  | nil => intro m a b; simp [Memory.writeBytes]
  | cons v rest ih =>
    intro m a b
    rw [Memory.writeBytes, ih, Memory.read_write]
    by_cases hb : b = a
    · subst hb; simp
    · by_cases h : a ≤ b
      · have e : b - a = (b - (a + 1)) + 1 := by omega
        have h1 : a + 1 ≤ b := by omega
        simp [h, h1, hb, e]
      · have h1 : ¬ a + 1 ≤ b := by omega
        simp [h, h1, hb]

/-! ### The canonical form -/

theorem cellsWf_mono {lo lo' : Nat} {l : List Host.Cell} (h : cellsWf lo l = true) (hl : lo' ≤ lo) :
    cellsWf lo' l = true := by
  cases l with
  | nil => rfl
  | cons c rest =>
    obtain ⟨a, v⟩ := c
    simp only [cellsWf, Bool.and_eq_true, decide_eq_true_eq] at h ⊢
    exact ⟨⟨⟨by omega, h.1.1.2⟩, h.1.2⟩, h.2⟩

theorem cellsWf_eraseCell (a : Nat) (l : List Host.Cell) : ∀ lo, cellsWf lo l = true → cellsWf lo (eraseCell a l) = true := by
  induction l with
  | nil => intro lo _; rfl
  | cons c rest ih =>
    obtain ⟨d, w⟩ := c
    intro lo h
    simp only [cellsWf, Bool.and_eq_true, decide_eq_true_eq] at h
    unfold eraseCell
    split
    · exact cellsWf_mono (ih _ h.2) (by omega)
    · simp only [cellsWf, Bool.and_eq_true, decide_eq_true_eq]
      exact ⟨h.1, ih _ h.2⟩

theorem cellsWf_insertCell {a : Nat} {v : Byte} (ha : a < Config.memSize) (hv : v ≠ 0) (l : List Host.Cell) :
    ∀ lo, lo ≤ a → (∀ c ∈ l, c.1 ≠ a) → cellsWf lo l = true → cellsWf lo (insertCell a v l) = true := by
  induction l with
  | nil => intro lo hlo _ _; simp only [insertCell, cellsWf, Bool.and_eq_true, decide_eq_true_eq]; exact ⟨⟨⟨hlo, ha⟩, hv⟩, trivial⟩
  | cons c rest ih =>
    obtain ⟨d, w⟩ := c
    intro lo hlo hne h
    have hd : d ≠ a := hne (d, w) (by simp)
    simp only [cellsWf, Bool.and_eq_true, decide_eq_true_eq] at h
    unfold insertCell
    split
    · simp only [cellsWf, Bool.and_eq_true, decide_eq_true_eq]
      exact ⟨⟨⟨hlo, ha⟩, hv⟩, ⟨⟨⟨by omega, h.1.1.2⟩, h.1.2⟩, h.2⟩⟩
    · simp only [cellsWf, Bool.and_eq_true, decide_eq_true_eq]
      exact ⟨h.1, ih _ (by omega) (fun c hc => hne c (by simp [hc])) h.2⟩

/-- A write below `MEM_SIZE` keeps the canonical form. -/
theorem Memory.wf_write {m : Memory} {a : Nat} (v : Byte) (h : m.wf = true) (ha : a < Config.memSize) :
    (m.write a v).wf = true := by
  unfold Memory.wf Memory.write at *
  by_cases hv : v = 0
  · simp only [hv, if_true]; exact cellsWf_eraseCell a _ 0 h
  · simp only [hv, if_false]
    exact cellsWf_insertCell ha hv _ 0 (Nat.zero_le _) (eraseCell_ne a _) (cellsWf_eraseCell a _ 0 h)

/-- A block of writes below `MEM_SIZE` keeps the canonical form. -/
theorem Memory.wf_writeBytes (bs : List Byte) : ∀ {m : Memory} {a : Nat}, m.wf = true → a + bs.length ≤ Config.memSize →
    (m.writeBytes a bs).wf = true := by
  induction bs with
  | nil => intro m a h _; exact h
  | cons b rest ih =>
    intro m a h hl
    simp only [List.length_cons] at hl
    exact ih (Memory.wf_write b h (by omega)) (by omega)

theorem readCells_below {a lo : Nat} {l : List Host.Cell} (h : cellsWf lo l = true) (ha : a < lo) : readCells a l = 0 := by
  induction l generalizing lo with
  | nil => rfl
  | cons c rest ih =>
    obtain ⟨d, w⟩ := c
    simp only [cellsWf, Bool.and_eq_true, decide_eq_true_eq] at h
    have hne : a ≠ d := by omega
    simp only [readCells, hne, if_false]
    exact ih h.2 (by omega)

theorem cells_ext {l l' : List Host.Cell} : ∀ {lo}, cellsWf lo l = true → cellsWf lo l' = true →
    (∀ a, readCells a l = readCells a l') → l = l' := by
  induction l generalizing l' with
  | nil =>
    intro lo _ h' heq
    cases l' with
    | nil => rfl
    | cons c rest =>
      obtain ⟨a, v⟩ := c
      simp only [cellsWf, Bool.and_eq_true, decide_eq_true_eq] at h'
      exact absurd (by simpa [readCells] using (heq a).symm) h'.1.2
  | cons c rest ih =>
    obtain ⟨a, v⟩ := c
    intro lo h h' heq
    cases l' with
    | nil =>
      simp only [cellsWf, Bool.and_eq_true, decide_eq_true_eq] at h
      exact absurd (by simpa [readCells] using heq a) h.1.2
    | cons c' rest' =>
      obtain ⟨b, w⟩ := c'
      have g := h
      have g' := h'
      simp only [cellsWf, Bool.and_eq_true, decide_eq_true_eq] at h h'
      have hab : a = b := by
        rcases Nat.lt_trichotomy a b with hlt | he | hgt
        · have e := heq a
          have z := readCells_below (a := a) h'.2 (by omega)
          have hne : a ≠ b := by omega
          simp only [readCells, if_true, hne, if_false, z] at e
          exact absurd e h.1.2
        · exact he
        · have e := heq b
          have z := readCells_below (a := b) h.2 (by omega)
          have hne : b ≠ a := by omega
          simp only [readCells, if_true, hne, if_false, z] at e
          exact absurd e.symm h'.1.2
      subst hab
      have hv : v = w := by simpa [readCells] using heq a
      subst hv
      have hr : rest = rest' := by
        refine ih h.2 h'.2 (fun d => ?_)
        by_cases hd : d = a
        · subst hd
          rw [readCells_below h.2 (by omega), readCells_below h'.2 (by omega)]
        · have e := heq d
          simpa [readCells, hd] using e
      rw [hr]

/-- Memories in canonical form that read alike are equal. -/
theorem Memory.ext_read {m m' : Memory} (h : m.wf = true) (h' : m'.wf = true) (heq : ∀ a, m.read a = m'.read a) :
    m = m' := by
  obtain ⟨l⟩ := m
  obtain ⟨l'⟩ := m'
  exact congrArg Memory.mk (cells_ext h h' heq)

/-- Nothing is listed at or above `MEM_SIZE`. -/
theorem Memory.read_high {m : Memory} (h : m.wf = true) {a : Nat} (ha : Config.memSize ≤ a) : m.read a = 0 := by
  obtain ⟨l⟩ := m
  have : ∀ (l : List Host.Cell) (lo : Nat), cellsWf lo l = true → readCells a l = 0 := by
    intro l
    induction l with
    | nil => intro _ _; rfl
    | cons c rest ih =>
      obtain ⟨d, w⟩ := c
      intro lo h
      simp only [cellsWf, Bool.and_eq_true, decide_eq_true_eq] at h
      have hne : a ≠ d := by omega
      simp only [readCells, hne, if_false]
      exact ih _ h.2
  exact this l 0 h

/-! ### Sequences of accesses -/

/-- Every write of the sequence is in range: the memory is the block write. -/
theorem memWriteSeq_ok (bs : List Byte) : ∀ (m : Memory) (a : Nat), a + bs.length ≤ Config.memSize →
    memWriteSeq m a bs = .ok (m.writeBytes a bs) := by
  induction bs with
  | nil => intro m a _; rfl
  | cons b rest ih =>
    intro m a h
    simp only [List.length_cons] at h
    have ha : a < Config.memSize := by omega
    simp only [memWriteSeq, memWrite, ha, if_true]
    exact ih _ _ (by omega)

/-- The only memory a sequence of writes can result in. -/
theorem memWriteSeq_eq (bs : List Byte) : ∀ {m m' : Memory} {a : Nat}, memWriteSeq m a bs = .ok m' →
    m' = m.writeBytes a bs := by
  induction bs with
  | nil => intro m m' a h; cases h; rfl
  | cons b rest ih =>
    intro m m' a h
    by_cases ha : a < Config.memSize
    · simp only [memWriteSeq, memWrite, ha, if_true] at h
      exact ih h
    · simp only [memWriteSeq, memWrite, ha, if_false] at h
      cases h

/-- A sequence of writes keeps every byte outside its own. -/
theorem memWriteSeq_frame {m m' : Memory} {a b : Nat} {bs : List Byte} (h : memWriteSeq m a bs = .ok m')
    (hb : b < a ∨ a + bs.length ≤ b) : m'.read b = m.read b := by
  rw [memWriteSeq_eq bs h, Memory.read_writeBytes]
  split
  · rw [List.getElem?_eq_none (by omega)]; rfl
  · rfl

/-- Some write of the sequence is out of range: the first such address is reported. -/
theorem memWriteSeq_error (bs : List Byte) : ∀ (m : Memory) (a : Nat), bs ≠ [] → Config.memSize < a + bs.length →
    memWriteSeq m a bs = .error (max a Config.memSize) := by
  induction bs with
  | nil => intro m a h; exact absurd rfl h
  | cons b rest ih =>
    intro m a _ h
    simp only [List.length_cons] at h
    by_cases ha : a < Config.memSize
    · simp only [memWriteSeq, memWrite, ha, if_true]
      have hr : rest ≠ [] := by
        rintro rfl
        simp at h ha
        omega
      rw [ih _ _ hr (by omega)]
      exact congrArg Except.error (by omega)
    · simp only [memWriteSeq, memWrite, ha, if_false]
      exact congrArg Except.error (by omega)

/-- Every read of the sequence is in range: the bytes, in address order. -/
theorem memReadSeq_ok (m : Memory) (n : Nat) : ∀ a, a + n ≤ Config.memSize →
    memReadSeq m a n = .ok ((List.range n).map fun k => m.read (a + k)) := by
  induction n with
  | zero => intro a _; rfl
  | succ n ih =>
    intro a h
    have ha : a < Config.memSize := by omega
    simp only [memReadSeq, memRead, ha, if_true]
    rw [ih (a + 1) (by omega)]
    simp only [List.range_succ_eq_map, List.map_cons, List.map_map, Nat.add_zero]
    congr 2
    apply List.map_congr_left
    intro k _
    simp only [Function.comp, Nat.succ_eq_add_one]
    congr 1
    omega

/-- Some read of the sequence is out of range: the first such address is reported. -/
theorem memReadSeq_error (m : Memory) (n : Nat) : ∀ a, 0 < n → Config.memSize < a + n →
    memReadSeq m a n = .error (max a Config.memSize) := by
  induction n with
  | zero => intro a h; omega
  | succ n ih =>
    intro a _ h
    by_cases ha : a < Config.memSize
    · simp only [memReadSeq, memRead, ha, if_true]
      rw [ih (a + 1) (by simp at h ha; omega) (by omega)]
      exact congrArg Except.error (by omega)
    · simp only [memReadSeq, memRead, ha, if_false]
      exact congrArg Except.error (by omega)

/-- What a fetch answers (20_memory.md R56). -/
theorem fetchWord_ok {m : Memory} {a : Nat} (h : a + 1 < Config.memSize) :
    fetchWord m a = .ok (wordOfBytes (m.read a) (m.read (a + 1))) := by
  have h1 : ¬ Config.memSize ≤ a := by omega
  have h2 : ¬ Config.memSize ≤ a + 1 := by omega
  simp only [fetchWord, h1, h2, if_false]

theorem fetchWord_error {m : Memory} {a : Nat} (h : Config.memSize ≤ a + 1) :
    fetchWord m a = .error (max a Config.memSize) := by
  by_cases h1 : Config.memSize ≤ a
  · simp only [fetchWord, h1, if_true]; exact congrArg Except.error (by omega)
  · simp only [fetchWord, h1, if_false, h, if_true]; exact congrArg Except.error (by omega)

/-- The list FX55 stores: `X + 1` bytes, byte `k` that of `V[k]`. -/
theorem regsThrough_length (s : State) (x : Reg) : (regsThrough s x).length = x.val + 1 := by
  have := x.isLt
  simp [regsThrough]

theorem regsThrough_getElem? (s : State) (x k : Reg) (h : k ≤ x) : (regsThrough s x)[k.val]? = some (s.reg k) := by
  have hk : k.val < x.val + 1 := Nat.lt_succ_of_le h
  have := k.isLt
  simp [regsThrough, State.reg, hk]

end Sys2Proof.Machine
end

