-- ==== Sys2Proof/Laws/Display.lean ====
section
/-! SUPPORT. The laws of the display and of the sprite rasterizer: what the loops of DXYN leave, pixel by pixel. -/

namespace Sys2Proof.Machine

open Sys2Proof

theorem decide_of_iff {p q : Prop} [Decidable p] [Decidable q] (h : p ↔ q) : decide p = decide q :=
  decide_eq_decide.2 h

@[simp] theorem pixel_clearDisplay (x y : Nat) : pixel clearDisplay x y = false := by
  simp [pixel, clearDisplay]

/-- There is no pixel outside the grid. -/
theorem pixel_outside (d : Display) {x y : Nat} (h : ¬ (x < 64 ∧ y < 32)) : pixel d x y = false := by
  unfold pixel
  split
  · rename_i hy
    exact BitVec.getLsbD_of_ge _ _ (by simp at hy; omega)
  · rfl

/-- A pixel flip turns that pixel and no other. -/
theorem pixel_flipPixel (d : Display) {x y : Nat} (hx : x < 64) (hy : y < 32) (a b : Nat) :
    pixel (flipPixel d x y) a b = if a = x ∧ b = y then !pixel d a b else pixel d a b := by
  unfold pixel flipPixel
  have hy' : y < Config.height := hy
  simp only [hy', dif_pos]
  by_cases hb : b < Config.height
  · simp only [hb, dif_pos, Vector.getElem_set]
    by_cases e : b = y
    · subst e
      by_cases ha : a = x
      · subst ha; simp [hx]
      · have ha' : ¬ x = a := fun h => ha h.symm
        simp [BitVec.getLsbD_twoPow, ha, ha']
    · have e' : ¬ y = b := fun h => e h.symm
      simp [e, e']
  · have e : b ≠ y := by rintro rfl; exact hb hy'
    simp [hb, e]

/-- Displays with the same pixels are equal. -/
theorem display_ext {d d' : Display} (h : ∀ x y, pixel d x y = pixel d' x y) : d = d' := by
  apply Vector.ext
  intro y hy
  apply BitVec.eq_of_getLsbD_eq
  intro x _
  have := h x y
  have hy' : y < Config.height := hy
  simpa only [pixel, hy', dif_pos] using this

/-- The columns of one sprite row from `col` on: every covered pixel inside the grid is flipped, and the flag records
whether one of them was ON. -/
theorem drawColumns_spec (byte : Byte) (x0 y : Nat) (hy : y < 32) (k : Nat) : ∀ (col : Nat) (acc : Display × Bool),
    (∀ a b, pixel (drawColumns byte x0 y k col acc).1 a b =
      (pixel acc.1 a b ^^ (decide (a < 64 ∧ b = y ∧ x0 + col ≤ a ∧ a < x0 + col + k) && byte.getLsbD (7 - (a - x0))))) ∧
    ((drawColumns byte x0 y k col acc).2 = true ↔ acc.2 = true ∨
      ∃ a, (a < 64 ∧ x0 + col ≤ a ∧ a < x0 + col + k) ∧ byte.getLsbD (7 - (a - x0)) = true ∧ pixel acc.1 a y = true) := by
  induction k with
  | zero =>
    intro col acc
    refine ⟨fun a b => ?_, ?_⟩
    · have : ¬ (a < 64 ∧ b = y ∧ x0 + col ≤ a ∧ a < x0 + col + 0) := by omega
      rw [decide_eq_false this]; simp [drawColumns]
    · constructor
      · exact fun h => .inl h
      · rintro (h | ⟨a, ha, -⟩)
        · exact h
        · omega
  | succ k ih =>
    intro col acc
    unfold drawColumns
    split
    · rename_i hclip
      have hclip' : 64 ≤ x0 + col := hclip
      refine ⟨fun a b => ?_, ?_⟩
      · have : ¬ (a < 64 ∧ b = y ∧ x0 + col ≤ a ∧ a < x0 + col + (k + 1)) := by omega
        rw [decide_eq_false this]; simp
      · constructor
        · exact fun h => .inl h
        · rintro (h | ⟨a, ha, -⟩)
          · exact h
          · omega
    · rename_i hclip
      have hc : x0 + col < 64 := Nat.lt_of_not_le hclip
      have key : ∀ a, a ≠ x0 + col →
          ((a < 64 ∧ x0 + (col + 1) ≤ a ∧ a < x0 + (col + 1) + k) ↔ (a < 64 ∧ x0 + col ≤ a ∧ a < x0 + col + (k + 1))) := by
        intro a ha; omega
      have sub : 7 - (x0 + col - x0) = 7 - col := by omega
      split
      · rename_i hbit
        obtain ⟨ih1, ih2⟩ := ih (col + 1) (flipPixel acc.1 (x0 + col) y, acc.2 || pixel acc.1 (x0 + col) y)
        refine ⟨fun a b => ?_, ?_⟩
        · rw [ih1, pixel_flipPixel _ hc hy]
          by_cases hab : a = x0 + col ∧ b = y
          · obtain ⟨rfl, rfl⟩ := hab
            have n1 : ¬ (x0 + col < 64 ∧ b = b ∧ x0 + (col + 1) ≤ x0 + col ∧ x0 + col < x0 + (col + 1) + k) := by omega
            have p1 : x0 + col < 64 ∧ b = b ∧ x0 + col ≤ x0 + col ∧ x0 + col < x0 + col + (k + 1) := by omega
            rw [decide_eq_false n1, decide_eq_true p1, sub, hbit]; simp
          · rw [if_neg hab]
            have : (a < 64 ∧ b = y ∧ x0 + (col + 1) ≤ a ∧ a < x0 + (col + 1) + k) ↔
                (a < 64 ∧ b = y ∧ x0 + col ≤ a ∧ a < x0 + col + (k + 1)) := by omega
            rw [decide_of_iff this]
        · rw [ih2]
          simp only [Bool.or_eq_true]
          constructor
          · rintro ((h | h) | ⟨a, ha, hb, hp⟩)
            · exact .inl h
            · exact .inr ⟨x0 + col, by omega, by rw [sub]; exact hbit, h⟩
            · have hne : a ≠ x0 + col := by omega
              rw [pixel_flipPixel _ hc hy, if_neg (fun e => hne e.1)] at hp
              exact .inr ⟨a, (key a hne).1 ha, hb, hp⟩
          · rintro (h | ⟨a, ha, hb, hp⟩)
            · exact .inl (.inl h)
            · by_cases hne : a = x0 + col
              · subst hne; exact .inl (.inr hp)
              · refine .inr ⟨a, (key a hne).2 ha, hb, ?_⟩
                rw [pixel_flipPixel _ hc hy, if_neg (fun e => hne e.1)]; exact hp
      · rename_i hbit
        obtain ⟨ih1, ih2⟩ := ih (col + 1) acc
        refine ⟨fun a b => ?_, ?_⟩
        · rw [ih1]
          by_cases hab : a = x0 + col
          · subst hab
            rw [sub]
            simp [Bool.eq_false_iff.2 hbit]
          · have : (a < 64 ∧ b = y ∧ x0 + (col + 1) ≤ a ∧ a < x0 + (col + 1) + k) ↔
                (a < 64 ∧ b = y ∧ x0 + col ≤ a ∧ a < x0 + col + (k + 1)) := by omega
            rw [decide_of_iff this]
        · rw [ih2]
          constructor
          · rintro (h | ⟨a, ha, hb, hp⟩)
            · exact .inl h
            · exact .inr ⟨a, (key a (by omega)).1 ha, hb, hp⟩
          · rintro (h | ⟨a, ha, hb, hp⟩)
            · exact .inl h
            · by_cases hne : a = x0 + col
              · subst hne; rw [sub] at hb; exact absurd hb hbit
              · exact .inr ⟨a, (key a hne).2 ha, hb, hp⟩

/-- The rows of a sprite from `row` on, every byte that is read being in range: every covered pixel inside the grid is
flipped, and the flag records whether one of them was ON. -/
theorem drawRows_ok (m : Memory) (base x0 y0 : Nat) (k : Nat) : ∀ (row : Nat) (acc : Display × Bool),
    y0 + row ≤ 32 → (∀ j, row ≤ j → j < row + k → y0 + j ≤ 32 → base + j < Config.memSize) →
    ∃ res, drawRows m base x0 y0 k row acc = .ok res ∧
      (∀ a b, pixel res.1 a b = (pixel acc.1 a b ^^
        (decide (a < 64 ∧ b < 32 ∧ x0 ≤ a ∧ a < x0 + 8 ∧ y0 + row ≤ b ∧ b < y0 + row + k) &&
          (m.read (base + (b - y0))).getLsbD (7 - (a - x0))))) ∧
      (res.2 = true ↔ acc.2 = true ∨ ∃ a b, (a < 64 ∧ b < 32 ∧ x0 ≤ a ∧ a < x0 + 8 ∧ y0 + row ≤ b ∧ b < y0 + row + k) ∧
        (m.read (base + (b - y0))).getLsbD (7 - (a - x0)) = true ∧ pixel acc.1 a b = true) := by
  induction k with
  | zero =>
    intro row acc _ _
    refine ⟨acc, rfl, fun a b => ?_, ?_⟩
    · have : ¬ (a < 64 ∧ b < 32 ∧ x0 ≤ a ∧ a < x0 + 8 ∧ y0 + row ≤ b ∧ b < y0 + row + 0) := by omega
      rw [decide_eq_false this]; simp
    · constructor
      · exact fun h => .inl h
      · rintro (h | ⟨a, b, hab, -⟩)
        · exact h
        · omega
  | succ k ih =>
    intro row acc hy hr
    by_cases hclip : 32 ≤ y0 + row
    · have hm : base + row < Config.memSize := hr row (Nat.le_refl _) (by omega) hy
      have hc : Config.height ≤ y0 + row := hclip
      refine ⟨acc, by simp only [drawRows, memRead, hm, if_true, hc], fun a b => ?_, ?_⟩
      · have : ¬ (a < 64 ∧ b < 32 ∧ x0 ≤ a ∧ a < x0 + 8 ∧ y0 + row ≤ b ∧ b < y0 + row + (k + 1)) := by omega
        rw [decide_eq_false this]; simp
      · constructor
        · exact fun h => .inl h
        · rintro (h | ⟨a, b, hab, -⟩)
          · exact h
          · omega
    · have hm : base + row < Config.memSize := hr row (Nat.le_refl _) (by omega) (by omega)
      have hc : ¬ Config.height ≤ y0 + row := hclip
      obtain ⟨c1, c2⟩ := drawColumns_spec (m.read (base + row)) x0 (y0 + row) (by omega) 8 0 acc
      obtain ⟨res, he, h1, h2⟩ := ih (row + 1) (drawColumns (m.read (base + row)) x0 (y0 + row) 8 0 acc) (by omega)
        (fun j hj hj' hy => hr j (by omega) (by omega) hy)
      have sub : y0 + row - y0 = row := by omega
      refine ⟨res, ?_, fun a b => ?_, ?_⟩
      · simp only [drawRows, memRead, hm, if_true, hc, if_false]; exact he
      · rw [h1, c1]
        by_cases hb : b = y0 + row
        · subst hb
          have n1 : ¬ (a < 64 ∧ y0 + row < 32 ∧ x0 ≤ a ∧ a < x0 + 8 ∧ y0 + (row + 1) ≤ y0 + row ∧
            y0 + row < y0 + (row + 1) + k) := by omega
          have p1 : (a < 64 ∧ y0 + row = y0 + row ∧ x0 + 0 ≤ a ∧ a < x0 + 0 + 8) ↔
              (a < 64 ∧ y0 + row < 32 ∧ x0 ≤ a ∧ a < x0 + 8 ∧ y0 + row ≤ y0 + row ∧ y0 + row < y0 + row + (k + 1)) := by
            omega
          have p1' := decide_of_iff p1
          rw [decide_eq_false n1, p1', sub]; simp
        · have n1 : ¬ (a < 64 ∧ b = y0 + row ∧ x0 + 0 ≤ a ∧ a < x0 + 0 + 8) := by omega
          have p1 : (a < 64 ∧ b < 32 ∧ x0 ≤ a ∧ a < x0 + 8 ∧ y0 + (row + 1) ≤ b ∧ b < y0 + (row + 1) + k) ↔
              (a < 64 ∧ b < 32 ∧ x0 ≤ a ∧ a < x0 + 8 ∧ y0 + row ≤ b ∧ b < y0 + row + (k + 1)) := by omega
          have p1' := decide_of_iff p1
          rw [decide_eq_false n1, p1']; simp
      · rw [h2, c2]
        constructor
        · rintro ((h | ⟨a, ha, hbit, hp⟩) | ⟨a, b, hab, hbit, hp⟩)
          · exact .inl h
          · exact .inr ⟨a, y0 + row, by omega, by rw [sub]; exact hbit, hp⟩
          · refine .inr ⟨a, b, by omega, hbit, ?_⟩
            have n1 : ¬ (a < 64 ∧ b = y0 + row ∧ x0 + 0 ≤ a ∧ a < x0 + 0 + 8) := by omega
            rw [c1, decide_eq_false n1] at hp
            simpa using hp
        · rintro (h | ⟨a, b, hab, hbit, hp⟩)
          · exact .inl (.inl h)
          · by_cases hb : b = y0 + row
            · subst hb
              rw [sub] at hbit
              exact .inl (.inr ⟨a, by omega, hbit, hp⟩)
            · refine .inr ⟨a, b, by omega, hbit, ?_⟩
              have n1 : ¬ (a < 64 ∧ b = y0 + row ∧ x0 + 0 ≤ a ∧ a < x0 + 0 + 8) := by omega
              rw [c1, decide_eq_false n1]
              simpa using hp

/-- A whole sprite whose bytes are all in range, from row 0 on, in the words of `spriteBit`. -/
theorem drawRows_sprite (m : Memory) (base x0 y0 n : Nat) (d : Display) (hy : y0 ≤ 32)
    (hr : ∀ j, j < n → y0 + j ≤ 32 → base + j < Config.memSize) :
    ∃ res, drawRows m base x0 y0 n 0 (d, false) = .ok res ∧
      (∀ a b, a < 64 → b < 32 → pixel res.1 a b = (pixel d a b ^^ spriteBit m base x0 y0 n a b)) ∧
      (res.2 = true ↔ ∃ a b, a < 64 ∧ b < 32 ∧ spriteBit m base x0 y0 n a b = true ∧ pixel d a b = true) := by
  obtain ⟨res, he, h1, h2⟩ := drawRows_ok m base x0 y0 n 0 (d, false) hy (fun j _ hj h => hr j (by omega) h)
  refine ⟨res, he, fun a b ha hb => ?_, ?_⟩
  · rw [h1, spriteBit]
    have p1 : (a < 64 ∧ b < 32 ∧ x0 ≤ a ∧ a < x0 + 8 ∧ y0 + 0 ≤ b ∧ b < y0 + 0 + n) ↔
        (x0 ≤ a ∧ a < x0 + 8 ∧ y0 ≤ b ∧ b < y0 + n) := by omega
    have p1' := decide_of_iff p1
    rw [p1']
  · rw [h2]
    simp only [spriteBit, Bool.and_eq_true, decide_eq_true_eq, Bool.false_eq_true, false_or]
    constructor
    · rintro ⟨a, b, hab, hbit, hp⟩
      exact ⟨a, b, by omega, by omega, ⟨by omega, hbit⟩, hp⟩
    · rintro ⟨a, b, ha, hb, ⟨hab, hbit⟩, hp⟩
      exact ⟨a, b, by omega, hbit, hp⟩

/-- Some byte that the sprite reads is out of range: the first such address is reported. -/
theorem drawRows_error (m : Memory) (base x0 y0 : Nat) (k : Nat) : ∀ (row : Nat) (acc : Display × Bool) (j : Nat),
    row ≤ j → j < row + k → y0 + j ≤ 32 → Config.memSize ≤ base + j →
    drawRows m base x0 y0 k row acc = .error (max (base + row) Config.memSize) := by
  induction k with
  | zero => intro row acc j; omega
  | succ k ih =>
    intro row acc j hj hj' hy hout
    by_cases hm : base + row < Config.memSize
    · have hne : j ≠ row := by rintro rfl; omega
      have hc : ¬ Config.height ≤ y0 + row := by simp; omega
      simp only [drawRows, memRead, hm, if_true, hc, if_false]
      rw [ih (row + 1) _ j (by omega) (by omega) hy hout]
      exact congrArg Except.error (by omega)
    · simp only [drawRows, memRead, hm, if_false]
      exact congrArg Except.error (by omega)

/-- A sprite that is drawn keeps every pixel it lays no bit over. -/
theorem drawRows_frame {m : Memory} {base x0 y0 n : Nat} {d : Display} {res : Display × Bool} (hy : y0 ≤ 32)
    (h : drawRows m base x0 y0 n 0 (d, false) = .ok res) {a b : Nat} (hb : spriteBit m base x0 y0 n a b = false) :
    pixel res.1 a b = pixel d a b := by
  by_cases hg : a < 64 ∧ b < 32
  · have hr : ∀ j, j < n → y0 + j ≤ 32 → base + j < Config.memSize := by
      intro j hj hj'
      by_contra ho
      rw [drawRows_error m base x0 y0 n 0 (d, false) j (Nat.zero_le _) (by omega) hj' (by omega)] at h
      cases h
    obtain ⟨res', he, hp, -⟩ := drawRows_sprite m base x0 y0 n d hy hr
    rw [h] at he
    cases he
    rw [hp a b hg.1 hg.2, hb, Bool.xor_false]
  · rw [pixel_outside _ hg, pixel_outside _ hg]

end Sys2Proof.Machine
end

