-- ==== Sys2Proof/Laws/Encoding.lean ====
section
/-! SUPPORT. The laws of the encoding: the fields and the masks of a word as arithmetic, and the words the encoder
builds. -/

namespace Sys2Proof

/-! ### The fields of a word (30_encoding.md R81) -/

theorem fields_op_toNat (w : Word) : (fields w).op.toNat = w.toNat / 4096 := by
  have := w.isLt
  simp [fields, BitVec.extractLsb'_toNat, Nat.shiftRight_eq_div_pow]; omega

theorem fields_x_val (w : Word) : (fields w).x.val = w.toNat / 256 % 16 := by
  simp [fields, Nat.shiftRight_eq_div_pow]

theorem fields_y_val (w : Word) : (fields w).y.val = w.toNat / 16 % 16 := by
  simp [fields, Nat.shiftRight_eq_div_pow]

theorem fields_n_toNat (w : Word) : (fields w).n.toNat = w.toNat % 16 := by
  simp [fields]

theorem fields_nn_toNat (w : Word) : (fields w).nn.toNat = w.toNat % 256 := by
  simp [fields]

theorem fields_nnn_toNat (w : Word) : (fields w).nnn.toNat = w.toNat % 4096 := by
  simp [fields]

/-! ### The masks of the opcode map (30_encoding.md R84) -/

theorem and_F000_toNat (w : Word) : (w &&& 0xF000#16).toNat = w.toNat / 4096 * 4096 := by
  have h : w &&& 0xF000#16 = (w >>> 12) <<< 12 := by
    apply BitVec.eq_of_getLsbD_eq
    intro i hi
    interval_cases i <;> simp
  have := w.isLt
  rw [h]
  simp [BitVec.toNat_shiftLeft, BitVec.toNat_ushiftRight, Nat.shiftRight_eq_div_pow, Nat.shiftLeft_eq]
  omega

theorem and_000F_toNat (w : Word) : (w &&& 0x000F#16).toNat = w.toNat % 16 := by
  have h : (0x000F#16).toNat = 2 ^ 4 - 1 := rfl
  rw [BitVec.toNat_and, h, Nat.and_two_pow_sub_one_eq_mod]

theorem and_00FF_toNat (w : Word) : (w &&& 0x00FF#16).toNat = w.toNat % 256 := by
  have h : (0x00FF#16).toNat = 2 ^ 8 - 1 := rfl
  rw [BitVec.toNat_and, h, Nat.and_two_pow_sub_one_eq_mod]

theorem and_FFFF (w : Word) : w &&& 0xFFFF#16 = w := by
  have h : (0xFFFF#16) = BitVec.allOnes 16 := by decide
  rw [h, BitVec.and_allOnes]

theorem and_F00F_toNat (w : Word) : (w &&& 0xF00F#16).toNat = w.toNat / 4096 * 4096 + w.toNat % 16 := by
  have h : w &&& 0xF00F#16 = (w &&& 0xF000#16) + (w &&& 0x000F#16) := by
    rw [BitVec.add_eq_or_of_and_eq_zero]
    · rw [← BitVec.and_or_distrib_left]; rfl
    · apply BitVec.eq_of_getLsbD_eq
      intro i hi
      interval_cases i <;> simp
  have := w.isLt
  rw [h, BitVec.toNat_add, and_F000_toNat, and_000F_toNat]
  omega

theorem and_F0FF_toNat (w : Word) : (w &&& 0xF0FF#16).toNat = w.toNat / 4096 * 4096 + w.toNat % 256 := by
  have h : w &&& 0xF0FF#16 = (w &&& 0xF000#16) + (w &&& 0x00FF#16) := by
    rw [BitVec.add_eq_or_of_and_eq_zero]
    · rw [← BitVec.and_or_distrib_left]; rfl
    · apply BitVec.eq_of_getLsbD_eq
      intro i hi
      interval_cases i <;> simp
  have := w.isLt
  rw [h, BitVec.toNat_add, and_F000_toNat, and_00FF_toNat]
  omega

/-! ### The words the encoder builds -/

theorem nibbles_toNat {op x y n : Nat} (ho : op < 16) (hx : x < 16) (hy : y < 16) (hn : n < 16) :
    (nibbles op x y n).toNat = op * 4096 + x * 256 + y * 16 + n := by
  simp only [nibbles, BitVec.toNat_ofNat]; omega

theorem regByte_toNat {op x nn : Nat} (ho : op < 16) (hx : x < 16) (hn : nn < 256) :
    (regByte op x nn).toNat = op * 4096 + x * 256 + nn := by
  simp only [regByte, BitVec.toNat_ofNat]; omega

theorem opAddr_toNat {op nnn : Nat} (ho : op < 16) (hn : nnn < 4096) : (opAddr op nnn).toNat = op * 4096 + nnn := by
  simp only [opAddr, BitVec.toNat_ofNat]; omega

/-! ### Bytes (20_memory.md R56, R57) -/

theorem wordOfBytes_toNat (hi lo : Byte) : (wordOfBytes hi lo).toNat = hi.toNat * 256 + lo.toNat := by
  have := hi.isLt
  have := lo.isLt
  simp only [wordOfBytes, BitVec.toNat_ofNat]; omega

theorem highByte_toNat (w : Word) : (highByte w).toNat = w.toNat / 256 := by
  have := w.isLt
  simp [highByte, BitVec.extractLsb'_toNat, Nat.shiftRight_eq_div_pow]; omega

theorem lowByte_toNat (w : Word) : (lowByte w).toNat = w.toNat % 256 := by
  simp [lowByte]

/-- The two bytes of a word give the word back. -/
theorem wordOfBytes_high_low (w : Word) : wordOfBytes (highByte w) (lowByte w) = w := by
  apply BitVec.eq_of_toNat_eq
  rw [wordOfBytes_toNat, highByte_toNat, lowByte_toNat]
  omega

end Sys2Proof
end

