-- ==== Sys2Proof/Laws/PerInstr.lean ====
section
/-! SUPPORT. Lemmas about every instruction as syntax, one per constructor. Family `FixedBits`: the word of an
instruction has the fixed bits of its row of the opcode map (30_encoding.md R84). -/

namespace Sys2Proof.Laws.FixedBits

open Sys2Proof

/-- The mask of the instruction's row of 30_encoding.md R84. -/
def mask : Instr → Word
  | .cls | .ret => 0xFFFF
  | .jp _ | .call _ | .seImm _ _ | .sneImm _ _ | .ldImm _ _ | .addImm _ _ | .ldI _ | .jpV0 _ | .rnd _ _ => 0xF000
  | .drw _ _ _ => 0xF000
  | .seReg _ _ | .ldReg _ _ | .orReg _ _ | .andReg _ _ | .xorReg _ _ | .addReg _ _ | .subReg _ _ => 0xF00F
  | .shrReg _ _ | .subnReg _ _ | .shlReg _ _ | .sneReg _ _ => 0xF00F
  | .skp _ | .sknp _ | .ldVxDt _ | .ldVxK _ | .ldDt _ | .ldSt _ | .addI _ | .ldF _ | .ldB _ => 0xF0FF
  | .ldStore _ | .ldLoad _ => 0xF0FF

/-- The match of the instruction's row of 30_encoding.md R84. -/
def pattern : Instr → Word
  | .cls => 0x00E0 | .ret => 0x00EE | .jp _ => 0x1000 | .call _ => 0x2000 | .seImm _ _ => 0x3000
  | .sneImm _ _ => 0x4000 | .seReg _ _ => 0x5000 | .ldImm _ _ => 0x6000 | .addImm _ _ => 0x7000
  | .ldReg _ _ => 0x8000 | .orReg _ _ => 0x8001 | .andReg _ _ => 0x8002 | .xorReg _ _ => 0x8003
  | .addReg _ _ => 0x8004 | .subReg _ _ => 0x8005 | .shrReg _ _ => 0x8006 | .subnReg _ _ => 0x8007
  | .shlReg _ _ => 0x800E | .sneReg _ _ => 0x9000 | .ldI _ => 0xA000 | .jpV0 _ => 0xB000 | .rnd _ _ => 0xC000
  | .drw _ _ _ => 0xD000 | .skp _ => 0xE09E | .sknp _ => 0xE0A1 | .ldVxDt _ => 0xF007 | .ldVxK _ => 0xF00A
  | .ldDt _ => 0xF015 | .ldSt _ => 0xF018 | .addI _ => 0xF01E | .ldF _ => 0xF029 | .ldB _ => 0xF033
  | .ldStore _ => 0xF055 | .ldLoad _ => 0xF065

/-- The encoded word has the fixed bits of the instruction's row. -/
def Statement (i : Instr) : Prop := encode i &&& mask i = pattern i

theorem opAddr_fixed {op nnn : Nat} (ho : op < 16) (hn : nnn < 4096) :
    opAddr op nnn &&& 0xF000#16 = BitVec.ofNat 16 (op * 4096) := by
  apply BitVec.eq_of_toNat_eq
  rw [and_F000_toNat, opAddr_toNat ho hn, BitVec.toNat_ofNat]; omega

theorem regByte_fixed_op {op x nn : Nat} (ho : op < 16) (hx : x < 16) (hn : nn < 256) :
    regByte op x nn &&& 0xF000#16 = BitVec.ofNat 16 (op * 4096) := by
  apply BitVec.eq_of_toNat_eq
  rw [and_F000_toNat, regByte_toNat ho hx hn, BitVec.toNat_ofNat]; omega

theorem regByte_fixed {op x nn : Nat} (ho : op < 16) (hx : x < 16) (hn : nn < 256) :
    regByte op x nn &&& 0xF0FF#16 = BitVec.ofNat 16 (op * 4096 + nn) := by
  apply BitVec.eq_of_toNat_eq
  rw [and_F0FF_toNat, regByte_toNat ho hx hn, BitVec.toNat_ofNat]; omega

theorem nibbles_fixed {op x y n : Nat} (ho : op < 16) (hx : x < 16) (hy : y < 16) (hn : n < 16) :
    nibbles op x y n &&& 0xF00F#16 = BitVec.ofNat 16 (op * 4096 + n) := by
  apply BitVec.eq_of_toNat_eq
  rw [and_F00F_toNat, nibbles_toNat ho hx hy hn, BitVec.toNat_ofNat]; omega

theorem nibbles_fixed_op {op x y n : Nat} (ho : op < 16) (hx : x < 16) (hy : y < 16) (hn : n < 16) :
    nibbles op x y n &&& 0xF000#16 = BitVec.ofNat 16 (op * 4096) := by
  apply BitVec.eq_of_toNat_eq
  rw [and_F000_toNat, nibbles_toNat ho hx hy hn, BitVec.toNat_ofNat]; omega

theorem cls : Statement .cls := rfl
theorem ret : Statement .ret := rfl
theorem jp (nnn : Addr12) : Statement (.jp nnn) := opAddr_fixed (by omega) nnn.isLt
theorem call (nnn : Addr12) : Statement (.call nnn) := opAddr_fixed (by omega) nnn.isLt
theorem seImm (x : Reg) (nn : Byte) : Statement (.seImm x nn) := regByte_fixed_op (by omega) x.isLt nn.isLt
theorem sneImm (x : Reg) (nn : Byte) : Statement (.sneImm x nn) := regByte_fixed_op (by omega) x.isLt nn.isLt
theorem seReg (x y : Reg) : Statement (.seReg x y) := nibbles_fixed (by omega) x.isLt y.isLt (by omega)
theorem ldImm (x : Reg) (nn : Byte) : Statement (.ldImm x nn) := regByte_fixed_op (by omega) x.isLt nn.isLt
theorem addImm (x : Reg) (nn : Byte) : Statement (.addImm x nn) := regByte_fixed_op (by omega) x.isLt nn.isLt
theorem ldReg (x y : Reg) : Statement (.ldReg x y) := nibbles_fixed (by omega) x.isLt y.isLt (by omega)
theorem orReg (x y : Reg) : Statement (.orReg x y) := nibbles_fixed (by omega) x.isLt y.isLt (by omega)
theorem andReg (x y : Reg) : Statement (.andReg x y) := nibbles_fixed (by omega) x.isLt y.isLt (by omega)
theorem xorReg (x y : Reg) : Statement (.xorReg x y) := nibbles_fixed (by omega) x.isLt y.isLt (by omega)
theorem addReg (x y : Reg) : Statement (.addReg x y) := nibbles_fixed (by omega) x.isLt y.isLt (by omega)
theorem subReg (x y : Reg) : Statement (.subReg x y) := nibbles_fixed (by omega) x.isLt y.isLt (by omega)
theorem shrReg (x y : Reg) : Statement (.shrReg x y) := nibbles_fixed (by omega) x.isLt y.isLt (by omega)
theorem subnReg (x y : Reg) : Statement (.subnReg x y) := nibbles_fixed (by omega) x.isLt y.isLt (by omega)
theorem shlReg (x y : Reg) : Statement (.shlReg x y) := nibbles_fixed (by omega) x.isLt y.isLt (by omega)
theorem sneReg (x y : Reg) : Statement (.sneReg x y) := nibbles_fixed (by omega) x.isLt y.isLt (by omega)
theorem ldI (nnn : Addr12) : Statement (.ldI nnn) := opAddr_fixed (by omega) nnn.isLt
theorem jpV0 (nnn : Addr12) : Statement (.jpV0 nnn) := opAddr_fixed (by omega) nnn.isLt
theorem rnd (x : Reg) (nn : Byte) : Statement (.rnd x nn) := regByte_fixed_op (by omega) x.isLt nn.isLt
theorem drw (x y : Reg) (n : Nat) : Statement (.drw x y n) := nibbles_fixed_op (by omega) x.isLt y.isLt (by omega)
theorem skp (x : Reg) : Statement (.skp x) := regByte_fixed (by omega) x.isLt (by omega)
theorem sknp (x : Reg) : Statement (.sknp x) := regByte_fixed (by omega) x.isLt (by omega)
theorem ldVxDt (x : Reg) : Statement (.ldVxDt x) := regByte_fixed (by omega) x.isLt (by omega)
theorem ldVxK (x : Reg) : Statement (.ldVxK x) := regByte_fixed (by omega) x.isLt (by omega)
theorem ldDt (x : Reg) : Statement (.ldDt x) := regByte_fixed (by omega) x.isLt (by omega)
theorem ldSt (x : Reg) : Statement (.ldSt x) := regByte_fixed (by omega) x.isLt (by omega)
theorem addI (x : Reg) : Statement (.addI x) := regByte_fixed (by omega) x.isLt (by omega)
theorem ldF (x : Reg) : Statement (.ldF x) := regByte_fixed (by omega) x.isLt (by omega)
theorem ldB (x : Reg) : Statement (.ldB x) := regByte_fixed (by omega) x.isLt (by omega)
theorem ldStore (x : Reg) : Statement (.ldStore x) := regByte_fixed (by omega) x.isLt (by omega)
theorem ldLoad (x : Reg) : Statement (.ldLoad x) := regByte_fixed (by omega) x.isLt (by omega)

end Sys2Proof.Laws.FixedBits
end

