-- ==== Sys2Proof/Laws/Step.lean ====
section
/-! SUPPORT. What the shared operations of a step can answer, once each: the stack, an access that may be out of
range, an instruction, the cycle, a host move, the step. -/

namespace Sys2Proof.Machine

open Sys2Proof

/-! ### The stack (10_state.md R27) -/

theorem push_of_lt {s : State} {a : Word} (h : s.sp.val < 16) :
    s.push a = some { s with stack := s.stack.set s.sp.val a h, sp := ⟨s.sp.val + 1, by omega⟩ } := by
  simp [State.push, h]

theorem push_full {s : State} {a : Word} (h : s.sp.val = 16) : s.push a = none := by
  simp [State.push, h]

theorem pop_of_pos {s : State} (h : 0 < s.sp.val) :
    s.pop = some (s.stack[s.sp.val - 1]'(by have := s.sp.isLt; omega),
      { s with sp := ⟨s.sp.val - 1, by have := s.sp.isLt; omega⟩ }) := by
  simp [State.pop, h]

theorem pop_empty {s : State} (h : s.sp.val = 0) : s.pop = none := by
  simp [State.pop, h]

/-! ### Accesses that may be out of range -/

theorem orOutOfBounds_ok {α : Type} {i : Instr} {s : State} {r : Except Nat α} {k : α → State} {a : α} (h : r = .ok a) :
    orOutOfBounds i s r k = .next (k a) := by
  rw [h]; rfl

theorem orOutOfBounds_error {α : Type} {i : Instr} {s : State} {r : Except Nat α} {k : α → State} {a : Nat}
    (h : r = .error a) : orOutOfBounds i s r k = .next (raise .outOfBoundsAccess (some (encode i)) (some a) s) := by
  rw [h]; rfl

/-- Everything an access can answer: its continuation, or the fault. -/
theorem orOutOfBounds_cases {α : Type} (i : Instr) (s : State) (r : Except Nat α) (k : α → State) :
    (∃ a, r = .ok a ∧ orOutOfBounds i s r k = .next (k a)) ∨
    (∃ a, r = .error a ∧ orOutOfBounds i s r k = .next (raise .outOfBoundsAccess (some (encode i)) (some a) s)) := by
  cases r with
  | ok a => exact .inl ⟨a, rfl, rfl⟩
  | error a => exact .inr ⟨a, rfl, rfl⟩

/-! ### The meanings with a fault of their own -/

/-- Everything RET can answer (41_control_flow.md R130). -/
theorem execRet_cases (s : State) :
    (∃ h : 0 < s.sp.val, execRet s = .next { s.afterFetch with
      pc := s.stack[s.sp.val - 1]'(by have := s.sp.isLt; omega), sp := ⟨s.sp.val - 1, by have := s.sp.isLt; omega⟩ }) ∨
    (s.sp.val = 0 ∧ execRet s = .next (raise .stackUnderflow (some (encode .ret)) none s)) := by
  by_cases h : 0 < s.sp.val
  · refine .inl ⟨h, ?_⟩
    have hp := pop_of_pos (s := s.afterFetch) h
    unfold execRet
    rw [hp]
    rfl
  · have h0 : s.sp.val = 0 := by omega
    refine .inr ⟨h0, ?_⟩
    have hp := pop_empty (s := s.afterFetch) h0
    unfold execRet
    rw [hp]

/-- Everything CALL can answer (41_control_flow.md R132). -/
theorem execCall_cases (nnn : Addr12) (s : State) :
    (∃ h : s.sp.val < 16, execCall nnn s = .next { s.afterFetch with
      pc := zext16 nnn, stack := s.stack.set s.sp.val (s.pc + 2) h, sp := ⟨s.sp.val + 1, by omega⟩ }) ∨
    (s.sp.val = 16 ∧ execCall nnn s = .next (raise .stackOverflow (some (encode (.call nnn))) none s)) := by
  by_cases h : s.sp.val < 16
  · refine .inl ⟨h, ?_⟩
    have hp := push_of_lt (s := s.afterFetch) (a := s.afterFetch.pc) h
    unfold execCall
    rw [hp]
    rfl
  · have h0 : s.sp.val = 16 := by have := s.sp.isLt; omega
    refine .inr ⟨h0, ?_⟩
    have hp := push_full (s := s.afterFetch) (a := s.afterFetch.pc) h0
    unfold execCall
    rw [hp]

/-! ### The cycle, a host move, the step -/

/-- Everything the cycle can do: the fetch's fault, an unknown opcode, or the decoded instruction (30_encoding.md
R85). -/
theorem cycle_cases (s : State) :
    (∃ a, fetchWord s.mem s.pc.toNat = .error a ∧ cycle s = .next (raise .outOfBoundsAccess none (some a) s)) ∨
    (∃ w, fetchWord s.mem s.pc.toNat = .ok w ∧ decodeWord w = none ∧ cycle s = .next (raise .unknownOpcode (some w) none s)) ∨
    (∃ w i, fetchWord s.mem s.pc.toNat = .ok w ∧ decodeWord w = some i ∧ cycle s = exec i s) := by
  unfold cycle
  cases hf : fetchWord s.mem s.pc.toNat with
  | error a => exact .inl ⟨a, rfl, rfl⟩
  | ok w =>
    cases hd : decodeWord w with
    | none => exact .inr (.inl ⟨w, rfl, hd, by simp [hd]⟩)
    | some i => exact .inr (.inr ⟨w, i, rfl, hd, by simp [hd]⟩)

/-- A host move is performed when enabled and refused when not. -/
theorem performMove_enabled {m : HostMove} {s : State} (h : enabled s.mode m = true) :
    performMove m s = match m with
      | .reset => .next (resetMove s)
      | .loadFont b => .next (loadFont b s)
      | .loadRom b => .next (loadRom b s)
      | .step => cycle s
      | .tick => .next (tick s)
      | .keyDeliver k => .next (keyDeliver k s)
      | .setKeys f => .next (setKeys f s) := by
  cases m <;> simp only [performMove, h, if_true]

theorem performMove_disabled {m : HostMove} {s : State} (h : enabled s.mode m = false) :
    performMove m s = .refused (.notEnabled m) := by
  simp [performMove, h]

/-- Everything a step can do: the oldest scheduled move, or a call of `Execute()` in the present mode. -/
theorem step_cases (s : State) :
    (∃ m rest, s.schedule = m :: rest ∧ step s = performMove m { s with schedule := rest }) ∨
    (s.schedule = [] ∧ s.canStep ∧ step s = cycle s) ∨
    (s.schedule = [] ∧ (∃ x, s.mode = .waitKey x) ∧ step s = .next s) ∨
    (s.schedule = [] ∧ ∃ r, s.mode = .fault r ∧ step s = .fault (.terminal r)) := by
  unfold step
  cases hs : s.schedule with
  | cons m rest => exact .inl ⟨m, rest, rfl, rfl⟩
  | nil =>
    refine .inr ?_
    unfold executeCall
    cases hm : s.mode with
    | init => exact .inl ⟨rfl, .inl hm, rfl⟩
    | run => exact .inl ⟨rfl, .inr hm, rfl⟩
    | waitKey x => exact .inr (.inl ⟨rfl, ⟨x, rfl⟩, rfl⟩)
    | fault r => exact .inr (.inr ⟨rfl, r, rfl, rfl⟩)

/-- A run of any machine is its first step and the run from there. -/
theorem run_next {M : Host.Core} {s t : M.State} {n : Nat} (h : M.step s = .next t) : M.run (n + 1) s = M.run n t := by
  simp only [Host.Core.run, h]

/-- A run of this machine is its first step and the run from there. -/
theorem core_run_next {s t : State} {n : Nat} (h : step s = .next t) :
    Host.Core.run Sys2Proof.core (n + 1) s = Host.Core.run Sys2Proof.core n t :=
  run_next (M := Sys2Proof.core) h

theorem core_run_zero (s : State) : Host.Core.run Sys2Proof.core 0 s = .next s := rfl

/-! ### The memory operations keep the canonical form -/

/-- A sequence of writes that is all in range keeps the canonical form. -/
theorem memWriteSeq_wf (bs : List Byte) : ∀ {m m' : Memory} {a : Nat}, m.wf = true → memWriteSeq m a bs = .ok m' →
    m'.wf = true := by
  induction bs with
  | nil => intro m m' a h he; cases he; exact h
  | cons b rest ih =>
    intro m m' a h he
    by_cases ha : a < Config.memSize
    · simp only [memWriteSeq, memWrite, ha, if_true] at he
      exact ih (Memory.wf_write b h ha) he
    · simp only [memWriteSeq, memWrite, ha, if_false] at he
      cases he

/-- The loaders keep the canonical form. -/
theorem loadFont_wf {b : Vector Byte 80} {s : State} (h : s.memInv) : (loadFont b s).memInv :=
  Memory.wf_writeBytes _ h (by simp)

theorem loadRom_wf {b : List Byte} {s : State} (h : s.memInv) : (loadRom b s).memInv := by
  unfold loadRom
  split
  · exact h
  · rename_i hl
    exact Memory.wf_writeBytes _ h (by simp at hl ⊢; omega)

end Sys2Proof.Machine
end

