-- ==== Sys2Proof/Tests/Slice0.lean ====
section
/-! SUPPORT. The model's own tests. The words are written out from the encodings of 30_encoding.md R84; the expected
results are those of spec/95_test_vectors.md, whose vector each test names. Below them, for each statement of
Obligations.lean that has hypotheses, a theorem that shows a state and operands that meet them. -/

namespace Sys2Proof.Tests

open Sys2Proof Sys2Proof.Machine

/-! ### Helpers -/

/-- The reset state with these registers. -/
def withRegs : List (Reg × Byte) → State
  | [] => State.reset
  | (r, b) :: rest => (withRegs rest).setReg r b

/-- Memory as the spec's vectors give it: bytes from an address up. -/
def withBytes (a : Nat) (bs : List Byte) (s : State) : State := { s with mem := s.mem.writeBytes a bs }

/-- The display with these pixels ON. -/
def withPixels : List (Nat × Nat) → Display
  | [] => clearDisplay
  | (x, y) :: rest => flipPixel (withPixels rest) x y

/-- The first 15 bytes of the font table, glyphs 0 to 2 (93_implementation_defined.md GK1). -/
def glyphs : List Byte := [0xF0, 0x90, 0x90, 0x90, 0xF0, 0x20, 0x60, 0x20, 0x20, 0x70, 0xF0, 0x10, 0xF0, 0x80, 0xF0]

/-- The next step, with the word `w` at PC, answers a next state of which `p` holds. -/
def runs (w : Nat) (s : State) (p : State → Bool) : Bool :=
  match step (s.withFetchWord 16 w) with
  | .next t => p t
  | .fault _ => false
  | .refused _ => false

/-- The host's move answers a next state of which `p` holds. -/
def moves (m : HostMove) (s : State) (p : State → Bool) : Bool :=
  match performMove m s with
  | .next t => p t
  | .fault _ => false
  | .refused _ => false

/-- The mode after a step at 0x200 that raised. -/
def faultAt200 (k : FaultKind) (w : Word) (a : Option Nat) : Mode :=
  .fault { kind := k, pc := some 0x200, word := some w, addr := a }

/-! ### Well-formedness, decoding and encoding -/

theorem test_row_count_must_fit : Instr.wellFormed (.drw 0 0 16) = false ∧ Instr.wellFormed (.drw 0 0 15) = true := by decide

theorem test_decode_display : decodeTableWord 16 0x00E0 = some .cls ∧ decodeTableWord 16 0xDAB7 = some (.drw 0xA 0xB 7) := by
  decide

theorem test_decode_control :
    decodeTableWord 16 0x00EE = some .ret ∧ decodeTableWord 16 0x1ABC = some (.jp 0xABC) ∧
    decodeTableWord 16 0x2ABC = some (.call 0xABC) ∧ decodeTableWord 16 0x3A5C = some (.seImm 0xA 0x5C) ∧
    decodeTableWord 16 0x4A5C = some (.sneImm 0xA 0x5C) ∧ decodeTableWord 16 0x5AB0 = some (.seReg 0xA 0xB) ∧
    decodeTableWord 16 0x9AB0 = some (.sneReg 0xA 0xB) ∧ decodeTableWord 16 0xBABC = some (.jpV0 0xABC) := by decide

theorem test_decode_alu :
    decodeTableWord 16 0x6A5C = some (.ldImm 0xA 0x5C) ∧ decodeTableWord 16 0x7A5C = some (.addImm 0xA 0x5C) ∧
    decodeTableWord 16 0x8AB0 = some (.ldReg 0xA 0xB) ∧ decodeTableWord 16 0x8AB1 = some (.orReg 0xA 0xB) ∧
    decodeTableWord 16 0x8AB2 = some (.andReg 0xA 0xB) ∧ decodeTableWord 16 0x8AB3 = some (.xorReg 0xA 0xB) ∧
    decodeTableWord 16 0x8AB4 = some (.addReg 0xA 0xB) ∧ decodeTableWord 16 0x8AB5 = some (.subReg 0xA 0xB) ∧
    decodeTableWord 16 0x8AB6 = some (.shrReg 0xA 0xB) ∧ decodeTableWord 16 0x8AB7 = some (.subnReg 0xA 0xB) ∧
    decodeTableWord 16 0x8ABE = some (.shlReg 0xA 0xB) ∧ decodeTableWord 16 0xCA5C = some (.rnd 0xA 0x5C) := by decide

theorem test_decode_memory :
    decodeTableWord 16 0xAABC = some (.ldI 0xABC) ∧ decodeTableWord 16 0xFA1E = some (.addI 0xA) ∧
    decodeTableWord 16 0xFA29 = some (.ldF 0xA) ∧ decodeTableWord 16 0xFA33 = some (.ldB 0xA) ∧
    decodeTableWord 16 0xFA55 = some (.ldStore 0xA) ∧ decodeTableWord 16 0xFA65 = some (.ldLoad 0xA) := by decide

theorem test_decode_keys_timers :
    decodeTableWord 16 0xEA9E = some (.skp 0xA) ∧ decodeTableWord 16 0xEAA1 = some (.sknp 0xA) ∧
    decodeTableWord 16 0xFA07 = some (.ldVxDt 0xA) ∧ decodeTableWord 16 0xFA0A = some (.ldVxK 0xA) ∧
    decodeTableWord 16 0xFA15 = some (.ldDt 0xA) ∧ decodeTableWord 16 0xFA18 = some (.ldSt 0xA) := by decide

/-- V-F5 to V-F12. -/
theorem test_decode_unknown :
    decodeTableWord 16 0x0123 = none ∧ decodeTableWord 16 0x0000 = none ∧ decodeTableWord 16 0x00E1 = none ∧
    decodeTableWord 16 0x5121 = none ∧ decodeTableWord 16 0x9121 = none ∧ decodeTableWord 16 0x8018 = none ∧
    decodeTableWord 16 0x801F = none ∧ decodeTableWord 16 0xE19F = none ∧ decodeTableWord 16 0xF000 = none := by decide

theorem test_decode_bytes :
    decode [0x12, 0x34, 0x56] = .ok (.jp 0x234, [0x56]) ∧ decode [0x12] = .error .truncated ∧
    decode [0x01, 0x23] = .error (.unknownOpcode 0x0123) := ⟨rfl, rfl, rfl⟩

theorem test_encode :
    encode (.call 0xABC) = 0x2ABC ∧ encode (.seReg 0xA 0xB) = 0x5AB0 ∧ encode (.shlReg 0xA 0xB) = 0x8ABE ∧
    encode (.rnd 0xA 0x5C) = 0xCA5C ∧ encode (.drw 0xA 0xB 7) = 0xDAB7 ∧ encode (.ldLoad 0xA) = 0xFA65 := by decide

/-! ### Fetch and reset -/

theorem test_reset_memory_canonical : State.reset.mem.wf = true := by decide

/-- V-F1, V-F13: the last word of memory is fetched, and the first step leaves INIT. -/
theorem test_fetch_top : runs 0x6001 { State.reset with pc := 0xFFE }
    (fun t => t.reg 0 == 1 && t.pc == 0x1000 && t.mode == .run) = true := by decide

/-- V-F2. -/
theorem test_fetch_second_byte_out_of_range : moves .step { State.reset with pc := 0xFFF }
    (fun t => t.mode == .fault ⟨.outOfBoundsAccess, some 0xFFF, none, some 0x1000⟩) = true := by decide

/-- V-F4: an odd PC is no fault. -/
theorem test_fetch_odd : runs 0x6001 { State.reset with pc := 0x201 } (fun t => t.reg 0 == 1 && t.pc == 0x203) = true := by
  decide

/-- V-F5. -/
theorem test_unknown_opcode : runs 0x0123 State.reset (fun t => t.mode == faultAt200 .unknownOpcode 0x0123 none && t.pc == 0x200) =
    true := by decide

/-! ### Display -/

/-- V-D1. -/
theorem test_cls : runs 0x00E0 { withRegs [(15, 1)] with disp := withPixels [(5, 7), (63, 31)] }
    (fun t => t.disp == clearDisplay && t.reg 15 == 1 && t.pc == 0x202) = true := by decide

/-- V-D4: the glyph of 0 at (60, 30), clipped below row 31. -/
theorem test_drw_clips : runs 0xD015 (withBytes 0 glyphs (withRegs [(0, 60), (1, 30)]))
    (fun t => t.disp == withPixels [(60, 30), (61, 30), (62, 30), (63, 30), (60, 31), (63, 31)] && t.reg 15 == 0) = true := by
  decide

/-- V-D11: the byte of the first clipped row is read, and read out of range. -/
theorem test_drw_clipped_row_faults : runs 0xD012 { withRegs [(1, 31)] with i := 0xFFF }
    (fun t => t.mode == faultAt200 .outOfBoundsAccess 0xD012 (some 0x1000) && t.disp == clearDisplay) = true := by decide

/-! ### Control transfer -/

/-- V-C1. -/
theorem test_ret_underflow : runs 0x00EE State.reset
    (fun t => t.mode == faultAt200 .stackUnderflow 0x00EE none && t.pc == 0x200 && t.sp == 0) = true := by decide

/-- V-C3. -/
theorem test_ret : runs 0x00EE { State.reset with sp := 16, stack := State.reset.stack.set 15 0xABC }
    (fun t => t.pc == 0xABC && t.sp == 15) = true := by decide

/-- V-C7: the return address of a CALL in the last word is 0x1000. -/
theorem test_call : runs 0x2300 { State.reset with pc := 0xFFE }
    (fun t => t.stack[0] == 0x1000 && t.sp == 1 && t.pc == 0x300) = true := by decide

/-- V-C6. -/
theorem test_call_overflow : runs 0x2300 { State.reset with sp := 16 }
    (fun t => t.mode == faultAt200 .stackOverflow 0x2300 none && t.sp == 16 && t.pc == 0x200) = true := by decide

/-- V-C8. -/
theorem test_jp : runs 0x1ABC State.reset (fun t => t.pc == 0xABC) = true := by decide

/-- V-C10. -/
theorem test_seImm : runs 0x3005 (withRegs [(0, 5)]) (fun t => t.pc == 0x204) = true ∧
    runs 0x3005 (withRegs [(0, 4)]) (fun t => t.pc == 0x202) = true := by decide

/-- V-C11. -/
theorem test_sneImm : runs 0x4005 (withRegs [(0, 4)]) (fun t => t.pc == 0x204) = true ∧
    runs 0x4005 (withRegs [(0, 5)]) (fun t => t.pc == 0x202) = true := by decide

/-- V-C12, and R135 where the registers differ. -/
theorem test_seReg : runs 0x5120 (withRegs [(1, 0x7F), (2, 0x7F)]) (fun t => t.pc == 0x204) = true ∧
    runs 0x5120 (withRegs [(1, 1), (2, 2)]) (fun t => t.pc == 0x202) = true := by decide

/-- V-C14, V-C15. -/
theorem test_sneReg : runs 0x9120 (withRegs [(1, 1), (2, 2)]) (fun t => t.pc == 0x204) = true ∧
    runs 0x9110 (withRegs [(1, 1)]) (fun t => t.pc == 0x202) = true := by decide

/-- V-C19: no fault in the jump itself. -/
theorem test_jpV0 : runs 0xBFFF (withRegs [(0, 1)]) (fun t => t.pc == 0x1000 && t.mode == .run) = true := by decide

/-! ### ALU -/

/-- V-A1. -/
theorem test_ldImm : runs 0x6A2B State.reset (fun t => t.reg 10 == 0x2B && t.pc == 0x202) = true := by decide

/-- V-A3. -/
theorem test_addImm : runs 0x700A (withRegs [(0, 250), (15, 7)]) (fun t => t.reg 0 == 4 && t.reg 15 == 7) = true := by decide

/-- V-A6. -/
theorem test_ldReg : runs 0x8120 (withRegs [(2, 0x99)]) (fun t => t.reg 1 == 0x99 && t.reg 2 == 0x99) = true := by decide

/-- V-A7. -/
theorem test_orReg : runs 0x8011 (withRegs [(0, 0x0F), (1, 0xF0), (15, 1)]) (fun t => t.reg 0 == 0xFF && t.reg 15 == 1) =
    true := by decide

/-- V-A8. -/
theorem test_andReg : runs 0x8012 (withRegs [(0, 0x3C), (1, 0x0F), (15, 1)]) (fun t => t.reg 0 == 0x0C && t.reg 15 == 1) =
    true := by decide

/-- V-A9. -/
theorem test_xorReg : runs 0x8013 (withRegs [(0, 0xFF), (1, 0x0F), (15, 1)]) (fun t => t.reg 0 == 0xF0 && t.reg 15 == 1) =
    true := by decide

/-- V-A11. -/
theorem test_addReg : runs 0x8014 (withRegs [(0, 255), (1, 1)]) (fun t => t.reg 0 == 0 && t.reg 15 == 1) = true := by decide

/-- V-A13: with X = F the carry overwrites the sum. -/
theorem test_addReg_into_vf : runs 0x8F14 (withRegs [(15, 0xFF), (1, 2)]) (fun t => t.reg 15 == 1) = true := by decide

/-- S3, V-A15. -/
theorem test_subReg : runs 0x8015 (withRegs [(0, 10), (1, 20)]) (fun t => t.reg 0 == 0xF6 && t.reg 15 == 0) = true ∧
    runs 0x8015 (withRegs [(0, 7), (1, 7)]) (fun t => t.reg 0 == 0 && t.reg 15 == 0) = true := by decide

/-- V-A17. -/
theorem test_subReg_into_vf : runs 0x8F15 (withRegs [(15, 5), (1, 3)]) (fun t => t.reg 15 == 1) = true := by decide

/-- V-A20: Y is ignored. -/
theorem test_shrReg : runs 0x8056 (withRegs [(0, 2), (5, 0xFF)]) (fun t => t.reg 0 == 1 && t.reg 15 == 0) = true := by decide

/-- V-A21: with X = F the shift acts on the flag. -/
theorem test_shrReg_vf : runs 0x8F06 (withRegs [(15, 0xFF)]) (fun t => t.reg 15 == 0) = true := by decide

/-- V-A22, V-A23. -/
theorem test_subnReg : runs 0x8017 (withRegs [(0, 10), (1, 20)]) (fun t => t.reg 0 == 0x0A && t.reg 15 == 1) = true ∧
    runs 0x8017 (withRegs [(0, 20), (1, 10)]) (fun t => t.reg 0 == 0xF6 && t.reg 15 == 0) = true := by decide

/-- V-A25. -/
theorem test_subnReg_into_vf : runs 0x8F17 (withRegs [(15, 3), (1, 5)]) (fun t => t.reg 15 == 1) = true := by decide

/-- V-A26. -/
theorem test_shlReg : runs 0x801E (withRegs [(0, 0x81)]) (fun t => t.reg 0 == 2 && t.reg 15 == 1) = true := by decide

/-- V-A28, V-A29. -/
theorem test_shlReg_vf : runs 0x8F0E (withRegs [(15, 0x80)]) (fun t => t.reg 15 == 2) = true ∧
    runs 0x8F0E (withRegs [(15, 0x7F)]) (fun t => t.reg 15 == 0) = true := by decide

/-- V-A30: if the draw is 0xA7, the masked result is 0x07. -/
theorem test_rnd (h : Config.randomByte 0 = 0xA7) : Leads (.rnd 0 0x0F) State.reset (fun t => t.reg 0 = 0x07) :=
  ⟨_, rfl, (congrArg (· &&& 0x0F) h).trans rfl⟩

/-- V-A31: whatever the draw. -/
theorem test_rnd_zero_mask : Leads (.rnd 0 0x00) State.reset (fun t => t.reg 0 = 0x00) :=
  ⟨_, rfl, BitVec.and_zero⟩

/-! ### Index and memory -/

/-- V-M1. -/
theorem test_ldI : runs 0xA123 State.reset (fun t => t.i == 0x123) = true := by decide

/-- V-M3. -/
theorem test_addI : runs 0xF01E { withRegs [(0, 2)] with i := 0xFFFF } (fun t => t.i == 1 && t.reg 15 == 0) = true := by decide

/-- V-M5. -/
theorem test_ldF : runs 0xF129 (withRegs [(1, 0xFF)]) (fun t => t.i == 0x4FB) = true := by decide

/-- V-M9. -/
theorem test_ldB : runs 0xF033 { withRegs [(0, 123)] with i := 0xFFD }
    (fun t => t.mem.read 0xFFD == 1 && t.mem.read 0xFFE == 2 && t.mem.read 0xFFF == 3) = true := by decide

/-- V-M10: nothing is written. -/
theorem test_ldB_faults : runs 0xF033 { withRegs [(0, 123)] with i := 0xFFE }
    (fun t => t.mode == faultAt200 .outOfBoundsAccess 0xF033 (some 0x1000) && t.mem.read 0xFFE == 0) = true := by decide

/-- V-M11. -/
theorem test_ldStore : runs 0xF255 { withRegs [(0, 1), (1, 2), (2, 3), (3, 4)] with i := 0x400 }
    (fun t => t.mem.read 0x400 == 1 && t.mem.read 0x402 == 3 && t.mem.read 0x403 == 0 && t.i == 0x400) = true := by decide

/-- V-M14. -/
theorem test_ldStore_faults : runs 0xF255 { withRegs [(0, 1)] with i := 0xFFE }
    (fun t => t.mode == faultAt200 .outOfBoundsAccess 0xF255 (some 0x1000) && t.mem.read 0xFFE == 0) = true := by decide

/-- V-M16. -/
theorem test_ldLoad : runs 0xF265 (withBytes 0x300 [1, 5, 7, 8] { withRegs [(3, 9)] with i := 0x300 })
    (fun t => t.reg 0 == 1 && t.reg 1 == 5 && t.reg 2 == 7 && t.reg 3 == 9 && t.i == 0x300) = true := by decide

/-- V-M18. -/
theorem test_ldLoad_faults : runs 0xF165 (withBytes 0xFFF [6] { withRegs [(0, 9)] with i := 0xFFF })
    (fun t => t.mode == faultAt200 .outOfBoundsAccess 0xF165 (some 0x1000) && t.reg 0 == 9) = true := by decide

/-! ### Keypad, timers and the host's moves -/

/-- V-K2. -/
theorem test_skp : runs 0xE19E { withRegs [(1, 0x1A)] with keyDown := State.reset.keyDown.set 10 true } (fun t => t.pc == 0x204) =
    true := by decide

/-- V-K3. -/
theorem test_sknp : runs 0xE1A1 (withRegs [(1, 5)]) (fun t => t.pc == 0x204) = true ∧
    runs 0xE1A1 { withRegs [(1, 5)] with keyDown := State.reset.keyDown.set 5 true } (fun t => t.pc == 0x202) = true := by decide

/-- V-K4. -/
theorem test_ldVxDt : runs 0xF307 { State.reset with dt := 0x3C } (fun t => t.reg 3 == 0x3C) = true := by decide

/-- V-K5. -/
theorem test_ldDt : runs 0xF015 (withRegs [(0, 60)]) (fun t => t.dt == 60 && t.st == 0) = true := by decide

/-- V-K6. -/
theorem test_ldSt : runs 0xF118 (withRegs [(1, 2)]) (fun t => t.st == 2 && t.dt == 0) = true := by decide

/-- V-K7. -/
theorem test_ldVxK : runs 0xF30A State.reset (fun t => t.pc == 0x202 && t.mode == .waitKey 3 && t.v == State.reset.v) = true := by
  decide

/-- V-K8, V-L5: not enabled. -/
theorem test_not_enabled : enabled (.waitKey 3) .step = false ∧ enabled .run (.loadFont (Vector.replicate 80 0)) = false := by
  decide

/-- V-K10. -/
theorem test_keyDeliver : moves (.keyDeliver 2) { withRegs [(15, 9)] with mode := .waitKey 15 }
    (fun t => t.reg 15 == 2 && t.mode == .run) = true := by decide

/-- V-T1, V-T2. -/
theorem test_tick : moves .tick State.reset (fun t => t.dt == 0 && t.st == 0) = true ∧
    moves .tick { State.reset with dt := 1, st := 5 } (fun t => t.dt == 0 && t.st == 4) = true := by decide

/-- V-L3: the first step from reset with nothing placed. -/
theorem test_empty_rom : moves .step State.reset (fun t => t.mode == faultAt200 .unknownOpcode 0x0000 none) = true := by decide

/-- R260: the numeric codes, and one in the record of a step that raised. -/
theorem test_fault_codes :
    FaultKind.code .stackUnderflow = 1 ∧ FaultKind.code .stackOverflow = 2 ∧ FaultKind.code .outOfBoundsAccess = 3 ∧
    FaultKind.code .unknownOpcode = 4 ∧ FaultKind.code .romLoadError = 5 ∧
    runs 0x00EE State.reset (fun t => match t.mode with
      | .fault r => r.code == 1
      | .init | .run | .waitKey _ => false) = true := by decide

/-! ### Witnesses: states and operands that meet a statement's hypotheses, clause by clause -/

/-- A record a faulted run may hold. -/
def someFault : FaultRec := { kind := .stackUnderflow, pc := some 0x200, word := some 0x00EE, addr := none }

theorem witness_DecodeOfEncodeIsTheInstruction : Instr.wellFormed (.drw 0xF 0xF 15) = true ∧ Instr.wellFormed .cls = true := by
  decide

theorem witness_EncodeOfDecodedWordIsTheWord : decodeWord 0xDFFF = some (.drw 0xF 0xF 15) ∧ decodeWord 0x00E0 = some .cls := by
  decide

/-- One unknown word of each line of R87, at the top of memory; the first is in a state that may step. -/
theorem witness_UnknownWordsRaiseUnknownOpcode :
    let s := State.withFetchWord { State.reset with pc := 0xFFE } 16 0x0123
    s.canStep ∧ s.pc.toNat + 1 < 4096 ∧
    (0x0123 : Word).toNat = (s.mem.read s.pc.toNat).toNat * 256 + (s.mem.read (s.pc.toNat + 1)).toNat ∧ unknownWord 0x0123 ∧
    unknownWord 0x5001 ∧ unknownWord 0x8008 ∧ unknownWord 0x900F ∧ unknownWord 0xE09F ∧ unknownWord 0xF066 := by
  refine ⟨.inl rfl, ?_, ?_, ?_, ?_, ?_, ?_, ?_, ?_⟩ <;> simp only [unknownWord] <;> decide

theorem witness_StepRunsTheDecodedInstruction :
    let s := State.withFetchWord { State.reset with pc := 0xFFE } 16 0x1ABC
    s.canStep ∧ s.pc.toNat + 1 < 4096 ∧
    decode [s.mem.read s.pc.toNat, s.mem.read (s.pc.toNat + 1)] = .ok (.jp 0xABC, []) ∧ s.schedule = [] ∧
    (let s' := { s with schedule := [.step, .tick] }
     s'.canStep ∧ decode [s'.mem.read s'.pc.toNat, s'.mem.read (s'.pc.toNat + 1)] = .ok (.jp 0xABC, []) ∧
     s'.schedule = .step :: [.tick]) :=
  ⟨.inl rfl, by decide, rfl, rfl, .inl rfl, rfl, rfl⟩

/-- The addresses 4094, 4095 and 4096, and PC at 4095 and 4096. -/
theorem witness_FetchNeedsBothBytesInRange :
    (4094 : Nat) + 1 < 4096 ∧ (4096 : Nat) ≤ 4096 ∧ (4095 : Nat) = 4095 ∧
    (let s := { State.reset with pc := 0xFFF }
     s.canStep ∧ 4096 ≤ s.pc.toNat + 1) ∧
    (let s := { State.reset with pc := 0x1000, mode := .run }
     s.canStep ∧ 4096 ≤ s.pc.toNat + 1) :=
  ⟨by decide, by decide, rfl, ⟨.inl rfl, by decide⟩, ⟨.inr rfl, by decide⟩⟩

/-- A fault with a word, and the fault of a fetch with none. -/
theorem witness_FaultingStepChangesOnlyTheMode :
    (∃ (s t : State) (r : FaultRec), s.canStep ∧ performMove .step s = .next t ∧ t.mode = .fault r ∧ r.word = some 0x00EE) ∧
    ∃ (s t : State) (r : FaultRec), s.canStep ∧ performMove .step s = .next t ∧ t.mode = .fault r ∧ r.word = none :=
  ⟨⟨State.reset.withFetchWord 16 0x00EE, _, _, .inl rfl, rfl, rfl, rfl⟩,
   ⟨{ State.reset with pc := 0xFFF }, _, _, .inl rfl, rfl, rfl, rfl⟩⟩

theorem witness_FaultModeIsTerminal :
    let s := { State.reset with mode := .fault someFault }
    s.mode = .fault someFault ∧ s.schedule = [] ∧ HostMove.tick ≠ .reset ∧ ∀ f, HostMove.tick ≠ .setKeys f :=
  ⟨rfl, rfl, by decide, fun _ h => by cases h⟩

theorem witness_RunningStepAlwaysAnswersNext :
    State.reset.canStep ∧ State.canStep { State.reset with mode := .run } := ⟨.inl rfl, .inr rfl⟩

/-- A step from INIT, a loader in INIT, and a move that leads back to INIT. -/
theorem witness_InitEndsAtTheFirstStep :
    (∃ t, performMove .step State.reset = .next t) ∧
    (∃ t, performMove (.loadRom [0x12]) State.reset = .next t) ∧
    (let s := { State.reset with mode := .run }
     ∃ t, performMove .reset s = .next t ∧ t.mode = .init ∧ s.mode ≠ .init) :=
  ⟨⟨_, rfl⟩, ⟨_, rfl⟩, ⟨_, rfl, rfl, by decide⟩⟩

/-- A run of four moves: a program loaded, its first step, a tick, a delivery. -/
theorem witness_EveryTransactionOrderIsARun : State.reset.schedule = [] ∧
    ∃ t, runMoves [.loadRom [0xF3, 0x0A], .step, .tick, .keyDeliver 7] State.reset = .next t ∧ t.reg 3 = 7 :=
  ⟨rfl, _, rfl, by decide⟩

/-- X other than F and X = F, with both values of each flag (AddSetsCarryLast, SubtractSetsNoBorrowLast,
ShiftsFollowTheStatementOrder, RegisterAliasingTable): both kinds of X, both kinds of Y. -/
theorem witness_RegisterClauses : (0 : Reg) ≠ Reg.vf ∧ (14 : Reg) ≠ Reg.vf ∧ (15 : Reg) = Reg.vf := by decide

theorem witness_RandomByteIsMasked : (0 : Byte) = 0 ∧ (0x0F : Byte).getLsbD 4 = false := by decide

/-- I + 2 at 4095, at 4096, and I itself past the end. -/
theorem witness_BcdStoresThreeDigits :
    indexAddr { State.reset with i := 0xFFD } 2 < 4096 ∧ 4096 ≤ indexAddr { State.reset with i := 0xFFE } 2 ∧
    4096 ≤ indexAddr { State.reset with i := 0xFFFF } 2 := by decide

/-- I + X at 4095 and at 4096, for X = 0 and X = F (BlockStoreWritesV0ToVx, BlockLoadReadsV0ToVx). -/
theorem witness_BlockClauses :
    indexAddr { State.reset with i := 0xFFF } (0 : Reg) < 4096 ∧ indexAddr { State.reset with i := 0xFF0 } (15 : Reg) < 4096 ∧
    4096 ≤ indexAddr { State.reset with i := 0x1000 } (0 : Reg) ∧ 4096 ≤ indexAddr { State.reset with i := 0xFF1 } (15 : Reg) := by
  decide

theorem witness_StoredBytesAreFetched :
    let s := { withRegs [(0, 0x64), (1, 0x2A)] with i := 0xFFE }
    (1 : Reg) ≤ 1 ∧ (1 : Reg).val = (0 : Reg).val + 1 ∧ indexAddr s (1 : Reg) < 4096 ∧ ∃ t, exec (.ldStore 1) s = .next t ∧
      t.mode = .run :=
  ⟨by decide, rfl, by decide, _, rfl, rfl⟩

/-- A stack with room for one more, and a full one. -/
theorem witness_CallPushesTheReturnAddress :
    State.sp { State.reset with sp := 15 } < 16 ∧ (State.sp { State.reset with sp := 16 }).val = 16 := by decide

/-- One entry, sixteen, and none. -/
theorem witness_ReturnPopsTheTopEntry :
    (State.sp { State.reset with sp := 1 }).val = (0 : Fin 16).val + 1 ∧
    (State.sp { State.reset with sp := 16 }).val = (15 : Fin 16).val + 1 ∧ State.reset.sp.val = 0 := by decide

/-- After the CALL, a routine that itself made a call and returned: the stale entry at the depth differs. -/
theorem witness_ReturnResumesAfterTheCall :
    let s := { State.reset with sp := 14 }
    s.sp.val < 16 ∧ ∃ t, exec (.call 0x300) s = .next t ∧
      (let u := { t with stack := t.stack.set 15 0x777 }
       u.sp = t.sp ∧ (∀ j : Fin 16, j.val < t.sp.val → u.stack[j] = t.stack[j]) ∧ u.stack ≠ t.stack) :=
  ⟨by decide, _, rfl, rfl, by decide, by decide⟩

theorem witness_KeyInstructionEntersTheWait : ∃ t, exec (.ldVxK 3) State.reset = .next t := ⟨_, rfl⟩

theorem witness_WaitWithoutAKeyNeverEnds :
    let s := { State.reset with mode := .waitKey 3 }
    s.mode = .waitKey 3 ∧ s.schedule = [] := ⟨rfl, rfl⟩

theorem witness_KeyDeliveryEndsTheWait :
    State.mode { State.reset with mode := .waitKey 15 } = .waitKey 15 ∧ ∀ x, State.reset.mode ≠ .waitKey x :=
  ⟨rfl, fun _ h => by cases h⟩

/-- A mode that ticks, and FAULT. -/
theorem witness_TickCountsDownToZero :
    (∀ r, State.mode { State.reset with mode := .waitKey 3, dt := 1 } ≠ .fault r) ∧
    ∃ r, State.mode { State.reset with mode := .fault someFault } = .fault r :=
  ⟨fun _ h => (by cases h), someFault, rfl⟩

/-- An instruction that completes and one that faults, in a state whose timers run. -/
theorem witness_TickCommutesWithOtherInstructions :
    (∀ x, Instr.ret ≠ .ldVxDt x) ∧ (∀ x, Instr.ret ≠ .ldDt x) ∧ (∀ x, Instr.ret ≠ .ldSt x) ∧
    (∃ t, exec .ret { State.reset with sp := 1, dt := 5 } = .next t ∧ t.mode = .run) ∧
    ∃ t, exec .ret { State.reset with dt := 5 } = .next t ∧ t.mode = faultAt200 .stackUnderflow 0x00EE none :=
  ⟨fun _ h => (by cases h), fun _ h => (by cases h), fun _ h => (by cases h), ⟨_, rfl, rfl⟩, ⟨_, rfl, rfl⟩⟩

theorem witness_KeyFlagsReachOnlyTheKeySkips :
    (∀ x, Instr.ldVxK 3 ≠ .skp x) ∧ (∀ x, Instr.ldVxK 3 ≠ .sknp x) ∧ ∃ t, exec (.ldVxK 3) State.reset = .next t :=
  ⟨fun _ h => (by cases h), fun _ h => (by cases h), _, rfl⟩

/-- V-D12: the last byte read is 4095 and it is of the first clipped row. The sprite bit over (0, 31) is 1: it is ON in the
one buffer, so a pixel goes OFF, and OFF in the other, so none does. -/
theorem witness_DrawXorsTheClippedSprite :
    let s := withBytes 0xFFE [0x80, 0x80] { withRegs [(1, 31)] with i := 0xFFE, disp := withPixels [(0, 31)] }
    (∀ row, row < 3 → (s.reg 1).toNat % 32 + row ≤ 32 → indexAddr s row < 4096) ∧
    (∃ t, exec (.drw 0 1 3) s = .next t ∧ pixel s.disp 0 31 = true ∧ pixel t.disp 0 31 = false) ∧
    (∃ t, exec (.drw 0 1 3) { s with disp := clearDisplay } = .next t ∧ t.mode = .run ∧
      ∀ a b, a < 64 → b < 32 → pixel clearDisplay a b = true → pixel t.disp a b = true) ∧ (3 : Nat) < 16 :=
  ⟨by decide, ⟨_, rfl, by decide, by decide⟩, ⟨_, rfl, rfl, fun a b _ _ h => by simp at h⟩, by decide⟩

/-- V-D11: the unreadable byte is that of the first clipped row; and a row on the grid. -/
theorem witness_DrawFaultsOnAnUnreadableRow :
    (let s := { withRegs [(1, 31)] with i := 0xFFF }
     1 < 2 ∧ (s.reg 1).toNat % 32 + 1 ≤ 32 ∧ 4096 ≤ indexAddr s 1) ∧
    (let s := { withRegs [(1, 0)] with i := 0x1000 }
     0 < 1 ∧ (s.reg 1).toNat % 32 + 0 ≤ 32 ∧ 4096 ≤ indexAddr s 0) := by decide

/-- V-D3: a glyph drawn twice, on an empty buffer. -/
theorem witness_DrawingTwiceRestoresTheBuffer :
    let s := withBytes 0 [0xF0] State.reset
    ∃ t u, exec (.drw 0 1 1) s = .next t ∧ exec (.drw 0 1 1) t = .next u ∧ t.mode = .run ∧ u.mode = .run ∧
      (t.reg 0).toNat % 64 = (s.reg 0).toNat % 64 ∧ (t.reg 1).toNat % 32 = (s.reg 1).toNat % 32 ∧
      (∀ a b, pixel s.disp a b = false) ∧ u.reg Reg.vf = 1 :=
  ⟨_, _, rfl, rfl, rfl, rfl, by decide, by decide, pixel_clearDisplay, by decide⟩

theorem witness_ResetLeavesTheTableOfResetValues :
    State.reset = State.reset ∧ ∃ t, performMove .reset { State.reset with mode := .fault someFault, pc := 0x300 } = .next t :=
  ⟨rfl, _, rfl⟩

theorem witness_LoadFontWritesEightyBytes : State.reset.mode = .init := rfl

/-- R303's boundary: 3584 bytes and 3585. -/
theorem witness_LoadRomIsAllOrNothing :
    State.reset.mode = .init ∧ (List.replicate 3584 (1 : Byte)).length ≤ 3584 ∧ 3584 < (List.replicate 3585 (1 : Byte)).length :=
  ⟨rfl, by rw [List.length_replicate], by rw [List.length_replicate]; decide⟩

theorem witness_LoaderOrderDoesNotMatter :
    State.reset.memInv ∧ State.reset.mode = .init ∧ (List.replicate 3584 (1 : Byte)).length ≤ 3584 :=
  ⟨by simp only [State.memInv]; decide, rfl, by rw [List.length_replicate]⟩

/-- A step that stores, at the top of memory. -/
theorem witness_StepKeepsMemoryCanonical :
    let s := State.withFetchWord { withRegs [(0, 9)] with i := 0xFFF } 16 0xF055
    s.memInv ∧ ∃ t, step s = .next t ∧ t.mem.read 0xFFF = 9 :=
  ⟨by simp only [State.memInv]; decide, _, rfl, by decide⟩

/-- The step that leaves PC at its greatest value, 0xFF + 0xFFF. -/
theorem witness_StepKeepsPcBounded :
    let s := State.withFetchWord (withRegs [(0, 0xFF)]) 16 0xBFFF
    s.controlInv ∧ ∃ t, step s = .next t ∧ t.pc = 0x10FE :=
  ⟨by simp only [State.controlInv]; decide, _, rfl, by decide⟩

/-- A step that records a fault, from a state that holds none. -/
theorem witness_StepKeepsFaultRecordShape :
    let s := State.reset.withFetchWord 16 0x00EE
    s.recordInv ∧ ∃ t, step s = .next t ∧ t.mode = .fault someFault :=
  ⟨fun _ h => (by cases h), _, rfl, rfl⟩

/-- Each clause at a boundary: the last bytes of memory, the last stack entry, a sprite that lays a bit, and what lies
just outside each. -/
theorem witness_EveryInstructionKeepsItsFrame :
    (let s := { withRegs [(0, 123)] with i := 0xFFD }
     (∃ t, exec (.ldB 0) s = .next t ∧ t.mode = .run) ∧ 0xFFC < indexAddr s 0 ∧ indexAddr s 2 < 0x1000) ∧
    (let s := { withRegs [(0, 9)] with i := 0xFFE }
     (∃ t, exec (.ldStore 1) s = .next t ∧ t.mode = .run) ∧ 0xFFD < indexAddr s 0 ∧ indexAddr s (1 : Reg) < 0x1000) ∧
    (let s := { State.reset with sp := 15 }
     (∃ t, exec (.call 0x300) s = .next t ∧ t.mode = .run) ∧ (14 : Fin 16).val ≠ s.sp.val) ∧
    (∃ t, exec .ret { State.reset with sp := 1 } = .next t ∧ t.mode = .run) ∧
    (let s := withBytes 0 [0xF0] State.reset
     (∃ t, exec (.drw 0 1 1) s = .next t ∧ pixel t.disp 3 0 = true) ∧
     spriteBit s.mem (indexAddr s 0) ((s.reg 0).toNat % 64) ((s.reg 1).toNat % 32) 1 4 0 = false) :=
  ⟨⟨⟨_, rfl, rfl⟩, by decide, by decide⟩, ⟨⟨_, rfl, rfl⟩, by decide, by decide⟩, ⟨⟨_, rfl, rfl⟩, by decide⟩, ⟨_, rfl, rfl⟩,
   ⟨⟨_, rfl, by decide⟩, by decide⟩⟩

theorem witness_FlagIsReadOnlyByName : ¬ namesVf (.addReg 0 1) ∧ ∃ t, exec (.addReg 0 1) State.reset = .next t :=
  ⟨by simp only [namesVf]; decide, _, rfl⟩

/-- The wait entered, kept over a tick, and left. -/
theorem witness_WaitIsEnteredByKeyInstructionOnly :
    (let s := State.reset.withFetchWord 16 0xF30A
     ∃ t, performMove .step s = .next t ∧ t.mode = .waitKey 3 ∧ s.mode ≠ .waitKey 3) ∧
    (let s := { State.reset with mode := .waitKey 3, dt := 2 }
     (∃ t, performMove .tick s = .next t ∧ s.mode = .waitKey 3) ∧
     ∃ t, performMove (.keyDeliver 7) s = .next t ∧ s.mode = .waitKey 3) :=
  ⟨⟨_, rfl, rfl, by decide⟩, ⟨_, rfl, rfl⟩, _, rfl, rfl⟩

/-- Two states that differ in a stale entry: a CALL overwrites the one beside it. -/
theorem witness_StaleStackEntriesAreNeverObserved :
    let s := State.reset.withFetchWord 16 0x2300
    let s' := { s with stack := s.stack.set 5 0x777 }
    SameButStale s s' ∧ s ≠ s' ∧ ∃ t, step s = .next t ∧ t.sp = 1 :=
  ⟨⟨rfl, fun _ h => absurd h (Nat.not_lt_zero _)⟩, by decide, _, rfl, by decide⟩

end Sys2Proof.Tests
end

section
/-! PROOF. Rules the proofs about the state share (10_state.md): what a step that answers a next state has done, the
addresses a fault reports, and an invariant of one instruction cycle as an invariant of every step. -/

namespace Sys2Proof.Machine

open Sys2Proof

/-! ### What an access, RET, CALL and the cycle leave when they answer a next state -/

/-- An access that answers a next state answers its continuation's, or the fault's. -/
theorem orOutOfBounds_next {α : Type} {i : Instr} {s t : State} {r : Except Nat α} {k : α → State}
    (h : orOutOfBounds i s r k = .next t) :
    (∃ a, r = .ok a ∧ t = k a) ∨
    (∃ a, r = .error a ∧ t = raise .outOfBoundsAccess (some (encode i)) (some a) s) := by
  obtain ⟨a, hr, he⟩ | ⟨a, hr, he⟩ := orOutOfBounds_cases i s r k
  · exact .inl ⟨a, hr, by cases he.symm.trans h; rfl⟩
  · exact .inr ⟨a, hr, by cases he.symm.trans h; rfl⟩

/-- An access that answers alike from two states carries a relation from its continuations, and from its faults, to
its answers. -/
theorem orOutOfBounds_related {α : Type} {R : State → State → Prop} {i : Instr} {s s' t : State} {r r' : Except Nat α}
    {k k' : α → State} (h : orOutOfBounds i s r k = .next t) (hr : r' = r) (hk : ∀ a, R (k a) (k' a))
    (hraise : ∀ w a, R (raise .outOfBoundsAccess w a s) (raise .outOfBoundsAccess w a s')) :
    ∃ t', orOutOfBounds i s' r' k' = .next t' ∧ R t t' := by
  obtain ⟨a, ha, rfl⟩ | ⟨a, ha, rfl⟩ := orOutOfBounds_next h
  · exact ⟨k' a, orOutOfBounds_ok (hr.trans ha), hk a⟩
  · exact ⟨_, orOutOfBounds_error (hr.trans ha), hraise _ _⟩

/-- The state RET leaves from a stack that is not empty (41_control_flow.md R130). -/
def State.returned (s : State) (h : 0 < s.sp.val) : State :=
  { s.afterFetch with
    pc := s.stack[s.sp.val - 1]'(by have := s.sp.isLt; omega), sp := ⟨s.sp.val - 1, by have := s.sp.isLt; omega⟩ }

/-- The state CALL leaves from a stack that is not full (41_control_flow.md R132). -/
def State.called (s : State) (nnn : Addr12) (h : s.sp.val < 16) : State :=
  { s.afterFetch with
    pc := zext16 nnn, stack := s.stack.set s.sp.val (s.pc + 2) h, sp := ⟨s.sp.val + 1, by omega⟩ }

theorem exec_ret_of_pos {s : State} (h : 0 < s.sp.val) : exec .ret s = .next (s.returned h) := by
  obtain ⟨_, he⟩ | ⟨h0, _⟩ := execRet_cases s
  · exact he
  · omega

theorem exec_ret_of_empty {s : State} (h : s.sp.val = 0) :
    exec .ret s = .next (raise .stackUnderflow (some (encode .ret)) none s) := by
  obtain ⟨hp, _⟩ | ⟨_, he⟩ := execRet_cases s
  · omega
  · exact he

theorem exec_call_of_lt (nnn : Addr12) {s : State} (h : s.sp.val < 16) :
    exec (.call nnn) s = .next (s.called nnn h) := by
  obtain ⟨_, he⟩ | ⟨h0, _⟩ := execCall_cases nnn s
  · exact he
  · omega

theorem exec_call_of_full (nnn : Addr12) {s : State} (h : s.sp.val = 16) :
    exec (.call nnn) s = .next (raise .stackOverflow (some (encode (.call nnn))) none s) := by
  obtain ⟨hp, _⟩ | ⟨_, he⟩ := execCall_cases nnn s
  · omega
  · exact he

/-- RET answers one of two next states. -/
theorem exec_ret_next {s t : State} (h : exec .ret s = .next t) :
    (∃ hp, t = s.returned hp) ∨ (s.sp.val = 0 ∧ t = raise .stackUnderflow (some (encode .ret)) none s) := by
  obtain h0 | hp := Nat.eq_zero_or_pos s.sp.val
  · exact .inr ⟨h0, by cases (exec_ret_of_empty h0).symm.trans h; rfl⟩
  · exact .inl ⟨hp, by cases (exec_ret_of_pos hp).symm.trans h; rfl⟩

/-- CALL answers one of two next states. -/
theorem exec_call_next {nnn : Addr12} {s t : State} (h : exec (.call nnn) s = .next t) :
    (∃ hl, t = s.called nnn hl) ∨
    (s.sp.val = 16 ∧ t = raise .stackOverflow (some (encode (.call nnn))) none s) := by
  obtain hl | h16 : s.sp.val < 16 ∨ s.sp.val = 16 := by have := s.sp.isLt; omega
  · exact .inl ⟨hl, by cases (exec_call_of_lt nnn hl).symm.trans h; rfl⟩
  · exact .inr ⟨h16, by cases (exec_call_of_full nnn h16).symm.trans h; rfl⟩

/-- A fetch that faults reports an address outside memory (20_memory.md R56). -/
theorem fetchWord_error_ge {m : Memory} {a e : Nat} (h : fetchWord m a = .error e) : Config.memSize ≤ e := by
  by_cases ha : a + 1 < Config.memSize
  · cases (fetchWord_ok ha).symm.trans h
  · cases (fetchWord_error (Nat.le_of_not_lt ha)).symm.trans h
    exact Nat.le_max_right _ _

/-- A fetch that completes has both its bytes in memory (20_memory.md R56). -/
theorem fetchWord_ok_lt {m : Memory} {a : Nat} {w : Word} (h : fetchWord m a = .ok w) : a + 1 < Config.memSize := by
  by_contra ha
  cases (fetchWord_error (Nat.le_of_not_lt ha)).symm.trans h

theorem cycle_of_fetch_error {s : State} {a : Nat} (hf : fetchWord s.mem s.pc.toNat = .error a) :
    cycle s = .next (raise .outOfBoundsAccess none (some a) s) := by
  simp only [cycle, hf]

theorem cycle_of_unknown {s : State} {w : Word} (hf : fetchWord s.mem s.pc.toNat = .ok w)
    (hd : decodeWord w = none) : cycle s = .next (raise .unknownOpcode (some w) none s) := by
  simp only [cycle, hf, hd]

theorem cycle_of_decode {s : State} {w : Word} {i : Instr} (hf : fetchWord s.mem s.pc.toNat = .ok w)
    (hd : decodeWord w = some i) : cycle s = exec i s := by
  simp only [cycle, hf, hd]

/-- What a cycle that answers a next state has done (30_encoding.md R85). -/
theorem cycle_next {s t : State} (h : cycle s = .next t) :
    (∃ a, Config.memSize ≤ a ∧ t = raise .outOfBoundsAccess none (some a) s) ∨
    (∃ w, decodeWord w = none ∧ t = raise .unknownOpcode (some w) none s) ∨
    (∃ i, s.pc.toNat + 1 < Config.memSize ∧ exec i s = .next t) := by
  obtain ⟨a, hf, he⟩ | ⟨w, _, hd, he⟩ | ⟨w, i, hf, _, he⟩ := cycle_cases s
  · exact .inl ⟨a, fetchWord_error_ge hf, by cases he.symm.trans h; rfl⟩
  · exact .inr (.inl ⟨w, hd, by cases he.symm.trans h; rfl⟩)
  · exact .inr (.inr ⟨i, fetchWord_ok_lt hf, he.symm.trans h⟩)

/-! ### A block load -/

/-- A sequence of reads that completes gives as many bytes as it was asked for. -/
theorem memReadSeq_length {m : Memory} {a n : Nat} {bs : List Byte} (h : memReadSeq m a n = .ok bs) :
    bs.length = n := by
  by_cases ha : a + n ≤ Config.memSize
  · cases (memReadSeq_ok m n a ha).symm.trans h
    simp
  · cases n with
    | zero => cases h; rfl
    | succ n => cases (memReadSeq_error m (n + 1) a n.succ_pos (by omega)).symm.trans h

/-- A block load commutes with a change of the state outside the registers. -/
theorem setRegsFrom_comm (bs : List Byte) (s : State) (r : Nat) (f : State → State) (hv : (f s).v = s.v)
    (hf : ∀ v, f { s with v := v } = { f s with v := v }) : (f s).setRegsFrom r bs = f (s.setRegsFrom r bs) :=
  calc (f s).setRegsFrom r bs = { f s with v := (s.setRegsFrom r bs).v } := by
        rw [setRegsFrom_eq_withV, setRegsFrom_v_congr bs r hv]
    _ = f { s with v := (s.setRegsFrom r bs).v } := (hf _).symm
    _ = f (s.setRegsFrom r bs) := (congrArg f (setRegsFrom_eq_withV bs s r)).symm

@[simp] theorem setRegsFrom_pc (s : State) (r : Nat) (bs : List Byte) : (s.setRegsFrom r bs).pc = s.pc := by
  rw [setRegsFrom_eq_withV]

@[simp] theorem setRegsFrom_stack (s : State) (r : Nat) (bs : List Byte) : (s.setRegsFrom r bs).stack = s.stack := by
  rw [setRegsFrom_eq_withV]

@[simp] theorem setRegsFrom_sp (s : State) (r : Nat) (bs : List Byte) : (s.setRegsFrom r bs).sp = s.sp := by
  rw [setRegsFrom_eq_withV]

@[simp] theorem setRegsFrom_mode (s : State) (r : Nat) (bs : List Byte) : (s.setRegsFrom r bs).mode = s.mode := by
  rw [setRegsFrom_eq_withV]

/-! ### From the transactions to the step -/

theorem step_of_move {s : State} {m : HostMove} {rest : List HostMove} (h : s.schedule = m :: rest) :
    step s = performMove m { s with schedule := rest } := by
  simp only [step, h]

theorem step_of_canStep {s : State} (h : s.schedule = []) (hm : s.canStep) : step s = cycle s := by
  obtain hm | hm := hm <;> simp only [step, h, executeCall, hm]

theorem step_of_waitKey {s : State} {x : Reg} (h : s.schedule = []) (hm : s.mode = .waitKey x) :
    step s = .next s := by
  simp only [step, h, executeCall, hm]

/-- A property of states that no transaction takes away: the host's moves keep it, and so does the instruction
cycle. -/
structure KeptByTransactions (P : State → Prop) : Prop where
  schedule : ∀ s rest, P s → P { s with schedule := rest }
  reset : ∀ s, P s → P (resetMove s)
  loadFont : ∀ s b, P s → P (loadFont b s)
  loadRom : ∀ s b, P s → P (loadRom b s)
  tick : ∀ s, P s → P (tick s)
  keyDeliver : ∀ s k, P s → P (keyDeliver k s)
  setKeys : ∀ s f, P s → P (setKeys f s)
  cycle : ∀ s t, P s → cycle s = .next t → P t

/-- What every transaction keeps, a host move keeps. -/
theorem KeptByTransactions.performMove {P : State → Prop} (hP : KeptByTransactions P) {m : HostMove} {s t : State}
    (hs : P s) (h : performMove m s = .next t) : P t := by
  cases he : enabled s.mode m with
  | false => cases (performMove_disabled he).symm.trans h
  | true =>
    rw [performMove_enabled he] at h
    cases m with
    | reset => cases h; exact hP.reset s hs
    | loadFont b => cases h; exact hP.loadFont s b hs
    | loadRom b => cases h; exact hP.loadRom s b hs
    | step => exact hP.cycle s t hs h
    | tick => cases h; exact hP.tick s hs
    | keyDeliver k => cases h; exact hP.keyDeliver s k hs
    | setKeys f => cases h; exact hP.setKeys s f hs

/-- What every transaction keeps, a step keeps, whatever the host schedules. -/
theorem KeptByTransactions.step {P : State → Prop} (hP : KeptByTransactions P) {s t : State}
    (hs : P s) (h : step s = .next t) : P t := by
  obtain ⟨m, rest, _, he⟩ | ⟨_, _, he⟩ | ⟨_, _, he⟩ | ⟨_, r, _, he⟩ := step_cases s
  · exact hP.performMove (hP.schedule s rest hs) (he.symm.trans h)
  · exact hP.cycle s t hs (he.symm.trans h)
  · cases he.symm.trans h; exact hs
  · cases he.symm.trans h

/-! ### PC and the stack under a load or a delivery -/

@[simp] theorem loadRom_pc (b : List Byte) (s : State) : (loadRom b s).pc = s.pc := by
  unfold loadRom; split <;> rfl

@[simp] theorem loadRom_stack (b : List Byte) (s : State) : (loadRom b s).stack = s.stack := by
  unfold loadRom; split <;> rfl

@[simp] theorem loadRom_sp (b : List Byte) (s : State) : (loadRom b s).sp = s.sp := by
  unfold loadRom; split <;> rfl

@[simp] theorem keyDeliver_pc (k : Key) (s : State) : (keyDeliver k s).pc = s.pc := by
  unfold keyDeliver; split <;> rfl

@[simp] theorem keyDeliver_sp (k : Key) (s : State) : (keyDeliver k s).sp = s.sp := by
  unfold keyDeliver; split <;> rfl

@[simp] theorem keyDeliver_stack (k : Key) (s : State) : (keyDeliver k s).stack = s.stack := by
  unfold keyDeliver; split <;> rfl

end Sys2Proof.Machine
end

section
/-! PROOF. Where the program counter and the stack entries may point (10_state.md R24). -/

namespace Sys2Proof.Machine

open Sys2Proof

/-- The values of PC one instruction from `s` may leave (41_control_flow.md R130 to R138): PC stays at a fault, passes
the instruction or one more slot, is a jump's target, or is a stack entry. -/
inductive NextPc (s : State) : Word → Prop
  | fault : NextPc s s.pc
  | advance : NextPc s (s.pc + 2)
  | skip : NextPc s (s.pc + 2 + 2)
  | jump (nnn : Addr12) : NextPc s (zext16 nnn)
  | jumpPlus (nnn : Addr12) : NextPc s (targetPlusV0 s nnn)
  | entry (j : Fin 16) : NextPc s s.stack[j]

theorem nextPc_skipWhen (s : State) (c : Bool) : NextPc s (s.afterFetch.skipWhen c).pc := by
  cases c
  · exact .advance
  · exact .skip

theorem nextPc_orOutOfBounds {α : Type} {i : Instr} {s t : State} {r : Except Nat α} {k : α → State}
    (hk : ∀ a, (k a).pc = s.pc + 2) (h : orOutOfBounds i s r k = .next t) : NextPc s t.pc := by
  obtain ⟨a, _, rfl⟩ | ⟨a, _, rfl⟩ := orOutOfBounds_next h
  · rw [hk]; exact .advance
  · exact .fault

/-- Every instruction leaves PC at one of these values. -/
theorem exec_nextPc {i : Instr} {s t : State} (h : exec i s = .next t) : NextPc s t.pc := by
  cases i with
  | ret =>
    obtain ⟨hp, rfl⟩ | ⟨_, rfl⟩ := exec_ret_next h
    · exact .entry ⟨s.sp.val - 1, by have := s.sp.isLt; omega⟩
    · exact .fault
  | call nnn =>
    obtain ⟨_, rfl⟩ | ⟨_, rfl⟩ := exec_call_next h
    · exact .jump nnn
    · exact .fault
  | jp nnn => cases h; exact .jump nnn
  | jpV0 nnn => cases h; exact .jumpPlus nnn
  | seImm _ _ | sneImm _ _ | seReg _ _ | sneReg _ _ | skp _ | sknp _ => cases h; exact nextPc_skipWhen s _
  | ldB _ | ldStore _ | drw _ _ _ => exact nextPc_orOutOfBounds (fun _ => rfl) h
  | ldLoad _ => exact nextPc_orOutOfBounds (fun bs => setRegsFrom_pc s.afterFetch 0 bs) h
  | _ => cases h; exact .advance

/-- Every instruction leaves a stack entry as it was, or puts the return address of a CALL there. -/
theorem exec_stack_entry {i : Instr} {s t : State} (h : exec i s = .next t) (j : Fin 16) :
    t.stack[j] = s.stack[j] ∨ t.stack[j] = s.pc + 2 := by
  cases i with
  | ret => obtain ⟨_, rfl⟩ | ⟨_, rfl⟩ := exec_ret_next h <;> exact .inl rfl
  | call nnn =>
    obtain ⟨hl, rfl⟩ | ⟨_, rfl⟩ := exec_call_next h
    · by_cases hj : s.sp.val = j.val
      · exact .inr (by simp [State.called, hj])
      · exact .inl (by simp [State.called, hj])
    · exact .inl rfl
  | ldB _ | ldStore _ | drw _ _ _ => obtain ⟨_, _, rfl⟩ | ⟨_, _, rfl⟩ := orOutOfBounds_next h <;> exact .inl rfl
  | ldLoad _ =>
    obtain ⟨bs, _, rfl⟩ | ⟨_, _, rfl⟩ := orOutOfBounds_next h
    · exact .inl (by simp)
    · exact .inl rfl
  | _ => cases h; exact .inl rfl

/-- From an instruction that memory holds, and entries of at most 0x1000, the next PC is at most 0x10FE: the largest is
the target of BNNN, 0xFF + 0xFFF. -/
theorem NextPc.toNat_le {s : State} {a : Word} (h : NextPc s a) (hf : s.pc.toNat + 1 < Config.memSize)
    (hstack : ∀ j : Fin 16, (s.stack[j]).toNat ≤ 0x1000) : a.toNat ≤ 0x10FE := by
  have hf' : s.pc.toNat + 1 < 4096 := hf
  cases h with
  | fault => omega
  | advance => bv_omega
  | skip => bv_omega
  | jump nnn => have := nnn.isLt; simp [zext16]; omega
  | jumpPlus nnn =>
    have := nnn.isLt
    have := (s.reg 0).isLt
    simp only [targetPlusV0, BitVec.toNat_ofNat]; omega
  | entry j => have := hstack j; omega

theorem exec_keeps_controlInv {i : Instr} {s t : State} (hs : s.controlInv) (hf : s.pc.toNat + 1 < Config.memSize)
    (h : exec i s = .next t) : t.controlInv := by
  refine ⟨(exec_nextPc h).toNat_le hf hs.2, fun j => ?_⟩
  obtain he | he := exec_stack_entry h j
  · rw [he]; exact hs.2 j
  · have hf' : s.pc.toNat + 1 < 4096 := hf
    rw [he]; bv_omega

/-- PC and the stack entries keep their bounds when neither is changed. -/
theorem State.controlInv.congr {s t : State} (hs : s.controlInv) (hpc : t.pc = s.pc) (hstack : t.stack = s.stack) :
    t.controlInv := by
  unfold State.controlInv
  rw [hpc, hstack]
  exact hs

theorem resetMove_controlInv (s : State) : (resetMove s).controlInv :=
  ⟨(by decide : (0x200 : Word).toNat ≤ 0x10FE), fun j => by simp [resetMove, State.reset]⟩

theorem controlInv_keptByTransactions : KeptByTransactions State.controlInv where
  schedule _ _ hs := hs
  reset s _ := resetMove_controlInv s
  loadFont _ _ hs := hs
  loadRom _ _ hs := hs.congr (loadRom_pc ..) (loadRom_stack ..)
  tick _ hs := hs
  keyDeliver _ _ hs := hs.congr (keyDeliver_pc ..) (keyDeliver_stack ..)
  setKeys _ _ hs := hs
  cycle s t hs h := by
    obtain ⟨_, _, rfl⟩ | ⟨_, _, rfl⟩ | ⟨i, hf, he⟩ := cycle_next h
    · exact hs
    · exact hs
    · exact exec_keeps_controlInv hs hf he

/-- Settles O48: the bounds are kept by every transaction, since an instruction runs from a PC that memory holds. -/
theorem stepKeepsPcBounded : Obligations.StepKeepsPcBounded :=
  fun _ _ hs h => controlInv_keptByTransactions.step hs h

end Sys2Proof.Machine
end

section
/-! PROOF. Stack entries at or above the depth are never observed (10_state.md R34). -/

namespace Sys2Proof.Machine

open Sys2Proof

/-- `s` with the stack entries `k` in place of its own. -/
def State.withStack (s : State) (k : Vector Word 16) : State := { s with stack := k }

/-- The relation says that the entries below the depth agree, and everything that is no entry. -/
theorem sameButStale_iff {s s' : State} :
    SameButStale s s' ↔ ∃ k, s' = s.withStack k ∧ ∀ j : Fin 16, j.val < s.sp.val → k[j] = s.stack[j] :=
  ⟨fun ⟨he, hj⟩ => ⟨s'.stack, he, hj⟩, by rintro ⟨k, rfl, hj⟩; exact ⟨rfl, hj⟩⟩

theorem SameButStale.mode_eq {s s' : State} (h : SameButStale s s') : s'.mode = s.mode := by rw [h.1]

theorem SameButStale.schedule_eq {s s' : State} (h : SameButStale s s') : s'.schedule = s.schedule := by rw [h.1]

/-- A change that does not look at the stack, and keeps its depth, keeps the relation. -/
theorem SameButStale.map {s s' : State} (h : SameButStale s s') (f : State → State)
    (hcomm : ∀ s k, f (s.withStack k) = (f s).withStack k) (hsp : (f s).sp = s.sp) :
    SameButStale (f s) (f s') := by
  obtain ⟨k, rfl, hk⟩ := sameButStale_iff.1 h
  have hstack : (f s).stack = s.stack := by
    have hself : f s = (f s).withStack s.stack := hcomm s s.stack
    rw [hself]; rfl
  exact sameButStale_iff.2 ⟨k, hcomm s k, by rw [hsp, hstack]; exact hk⟩

theorem setRegsFrom_withStack (bs : List Byte) (s : State) (r : Nat) (k : Vector Word 16) :
    (s.withStack k).setRegsFrom r bs = (s.setRegsFrom r bs).withStack k :=
  setRegsFrom_comm bs s r (·.withStack k) rfl (fun _ => rfl)

/-- RET reads the entry below the old depth, which the relation fixes. -/
theorem SameButStale.exec_ret {s s' t : State} (hs : SameButStale s s') (h : exec .ret s = .next t) :
    ∃ t', exec .ret s' = .next t' ∧ SameButStale t t' := by
  obtain ⟨k, rfl, hk⟩ := sameButStale_iff.1 hs
  obtain ⟨hp, rfl⟩ | ⟨h0, rfl⟩ := exec_ret_next h
  · have hp' : 0 < (s.withStack k).sp.val := hp
    have htop := hk ⟨s.sp.val - 1, by have := s.sp.isLt; omega⟩ (Nat.sub_lt hp Nat.one_pos)
    refine ⟨_, exec_ret_of_pos hp', sameButStale_iff.2 ⟨k, ?_, fun j hj => hk j ?_⟩⟩
    · exact congrArg (fun a : Word => { (s.returned hp).withStack k with pc := a }) htop
    · exact Nat.lt_of_lt_of_le hj (Nat.sub_le _ _)
  · exact ⟨_, exec_ret_of_empty (s := s.withStack k) h0, rfl, hk⟩

/-- CALL writes the entry at the old depth, the only one that stops being stale. -/
theorem SameButStale.exec_call {nnn : Addr12} {s s' t : State} (hs : SameButStale s s')
    (h : exec (.call nnn) s = .next t) : ∃ t', exec (.call nnn) s' = .next t' ∧ SameButStale t t' := by
  obtain ⟨k, rfl, hk⟩ := sameButStale_iff.1 hs
  obtain ⟨hl, rfl⟩ | ⟨h16, rfl⟩ := exec_call_next h
  · refine ⟨_, exec_call_of_lt nnn (s := s.withStack k) hl, rfl, fun j hj => ?_⟩
    have hj' : j.val < s.sp.val + 1 := hj
    by_cases hjs : s.sp.val = j.val
    · simp [State.called, State.withStack, hjs]
    · have hkj := hk j (by omega)
      simpa [State.called, State.withStack, hjs] using hkj
  · exact ⟨_, exec_call_of_full nnn (s := s.withStack k) h16, rfl, hk⟩

/-- No instruction observes a stale entry: RET and CALL by the rules above, every other one because it does not look at
the stack. -/
theorem SameButStale.exec {i : Instr} {s s' t : State} (hs : SameButStale s s') (h : exec i s = .next t) :
    ∃ t', exec i s' = .next t' ∧ SameButStale t t' := by
  cases i with
  | ret => exact hs.exec_ret h
  | call nnn => exact hs.exec_call h
  | ldB _ | ldStore _ | drw _ _ _ =>
    obtain ⟨k, rfl, hk⟩ := sameButStale_iff.1 hs
    exact orOutOfBounds_related (R := SameButStale) h rfl (fun _ => ⟨rfl, hk⟩) (fun _ _ => ⟨rfl, hk⟩)
  | ldLoad _ =>
    obtain ⟨k, rfl, hk⟩ := sameButStale_iff.1 hs
    refine orOutOfBounds_related (R := SameButStale) h rfl (fun bs => ?_) (fun _ _ => ⟨rfl, hk⟩)
    exact sameButStale_iff.2 ⟨k, setRegsFrom_withStack bs s.afterFetch 0 k, by simpa using hk⟩
  | _ =>
    obtain ⟨k, rfl, hk⟩ := sameButStale_iff.1 hs
    cases h
    exact ⟨_, rfl, rfl, hk⟩

/-- The fetch does not look at the stack, so the cycle observes no stale entry. -/
theorem SameButStale.cycle {s s' t : State} (hs : SameButStale s s') (h : cycle s = .next t) :
    ∃ t', cycle s' = .next t' ∧ SameButStale t t' := by
  obtain ⟨a, hf, he⟩ | ⟨w, hf, hd, he⟩ | ⟨w, i, hf, hd, he⟩ := cycle_cases s
  · cases he.symm.trans h
    obtain ⟨k, rfl, hk⟩ := sameButStale_iff.1 hs
    exact ⟨_, cycle_of_fetch_error (s := s.withStack k) hf, rfl, hk⟩
  · cases he.symm.trans h
    obtain ⟨k, rfl, hk⟩ := sameButStale_iff.1 hs
    exact ⟨_, cycle_of_unknown (s := s.withStack k) hf hd, rfl, hk⟩
  · obtain ⟨t', he', ht⟩ := hs.exec (he.symm.trans h)
    obtain ⟨k, rfl, hk⟩ := sameButStale_iff.1 hs
    exact ⟨t', (cycle_of_decode (s := s.withStack k) hf hd).trans he', ht⟩

theorem loadRom_withStack (b : List Byte) (s : State) (k : Vector Word 16) :
    loadRom b (s.withStack k) = (loadRom b s).withStack k := by
  unfold loadRom; split <;> rfl

theorem keyDeliver_withStack (key : Key) (s : State) (k : Vector Word 16) :
    keyDeliver key (s.withStack k) = (keyDeliver key s).withStack k := by
  obtain ⟨v, pc, i, dt, st, sp, stack, mem, disp, mode, keyDown, draws, schedule⟩ := s
  cases mode <;> rfl

/-- No host move observes a stale entry. -/
theorem SameButStale.performMove {m : HostMove} {s s' t : State} (hs : SameButStale s s')
    (h : performMove m s = .next t) : ∃ t', performMove m s' = .next t' ∧ SameButStale t t' := by
  cases he : enabled s.mode m with
  | false => cases (performMove_disabled he).symm.trans h
  | true =>
    rw [performMove_enabled he] at h
    rw [performMove_enabled (hs.mode_eq ▸ he)]
    cases m with
    | reset =>
      cases h
      obtain ⟨k, rfl, _⟩ := sameButStale_iff.1 hs
      exact ⟨resetMove s, rfl, rfl, fun _ _ => rfl⟩
    | loadFont b => cases h; exact ⟨_, rfl, hs.map (loadFont b) (fun _ _ => rfl) rfl⟩
    | loadRom b => cases h; exact ⟨_, rfl, hs.map (loadRom b) (loadRom_withStack b) (loadRom_sp b s)⟩
    | step => exact hs.cycle h
    | tick => cases h; exact ⟨_, rfl, hs.map tick (fun _ _ => rfl) rfl⟩
    | keyDeliver k => cases h; exact ⟨_, rfl, hs.map (keyDeliver k) (keyDeliver_withStack k) (keyDeliver_sp k s)⟩
    | setKeys f => cases h; exact ⟨_, rfl, hs.map (setKeys f) (fun _ _ => rfl) rfl⟩

/-- Settles O54: a step is a host move, a cycle, or a wait, and none of them observes a stale entry. -/
theorem staleStackEntriesAreNeverObserved : Obligations.StaleStackEntriesAreNeverObserved := by
  intro s s' t hs h
  obtain ⟨m, rest, hm, he⟩ | ⟨hn, hc, he⟩ | ⟨hn, ⟨x, hx⟩, he⟩ | ⟨_, r, _, he⟩ := step_cases s
  · have hs' := hs.map (fun q => { q with schedule := rest }) (fun _ _ => rfl) rfl
    rw [step_of_move (hs.schedule_eq.trans hm)]
    exact hs'.performMove (he.symm.trans h)
  · have hc' : s'.canStep := by unfold State.canStep; rw [hs.mode_eq]; exact hc
    rw [step_of_canStep (hs.schedule_eq.trans hn) hc']
    exact hs.cycle (he.symm.trans h)
  · cases he.symm.trans h
    exact ⟨s', step_of_waitKey (hs.schedule_eq.trans hn) (hs.mode_eq.trans hx), hs⟩
  · cases he.symm.trans h

end Sys2Proof.Machine
end

section
/-! PROOF. No instruction but EX9E and EXA1 sees the key flags (10_state.md R30). -/

namespace Sys2Proof.Machine

open Sys2Proof

/-- `s` with the key flags `f` in place of its own. -/
def State.withKeyDown (s : State) (f : Vector Bool 16) : State := { s with keyDown := f }

theorem setRegsFrom_withKeyDown (bs : List Byte) (s : State) (r : Nat) (f : Vector Bool 16) :
    (s.withKeyDown f).setRegsFrom r bs = (s.setRegsFrom r bs).withKeyDown f :=
  setRegsFrom_comm bs s r (·.withKeyDown f) rfl (fun _ => rfl)

/-- An access that answers alike whatever the key flags are leaves them to its continuation. -/
theorem orOutOfBounds_withKeyDown {α : Type} {i : Instr} {s t : State} {r : Except Nat α} {k k' : α → State}
    {f : Vector Bool 16} (h : orOutOfBounds i s r k = .next t) (hk : ∀ a, k' a = (k a).withKeyDown f) :
    orOutOfBounds i (s.withKeyDown f) r k' = .next (t.withKeyDown f) := by
  obtain ⟨t', he, rfl⟩ := orOutOfBounds_related (R := fun t t' => t' = t.withKeyDown f)
    (s' := s.withKeyDown f) h rfl hk (fun _ _ => rfl)
  exact he

/-- Settles O37: with other flags, every other instruction takes the same branch and leaves the flags alone. -/
theorem keyFlagsReachOnlyTheKeySkips : Obligations.KeyFlagsReachOnlyTheKeySkips := by
  intro i f s t hskp hsknp h
  cases i with
  | skp x => exact absurd rfl (hskp x)
  | sknp x => exact absurd rfl (hsknp x)
  | ret =>
    obtain ⟨hp, rfl⟩ | ⟨h0, rfl⟩ := exec_ret_next h
    · exact exec_ret_of_pos (s := s.withKeyDown f) hp
    · exact exec_ret_of_empty (s := s.withKeyDown f) h0
  | call nnn =>
    obtain ⟨hl, rfl⟩ | ⟨h16, rfl⟩ := exec_call_next h
    · exact exec_call_of_lt nnn (s := s.withKeyDown f) hl
    · exact exec_call_of_full nnn (s := s.withKeyDown f) h16
  | ldB _ | ldStore _ | drw _ _ _ => exact orOutOfBounds_withKeyDown h (fun _ => rfl)
  | ldLoad _ => exact orOutOfBounds_withKeyDown h (fun bs => setRegsFrom_withKeyDown bs s.afterFetch 0 f)
  | _ => cases h; rfl

end Sys2Proof.Machine
end

section
/-! PROOF. A recorded fault has the fields and the code of its kind (10_state.md R32; 60_exceptions.md R260, R261). -/

namespace Sys2Proof.Machine

open Sys2Proof

/-! ### The address a faulting access reports is outside memory (20_memory.md R54, R55) -/

theorem memRead_error_ge {m : Memory} {a e : Nat} (h : memRead m a = .error e) : Config.memSize ≤ e := by
  unfold memRead at h
  split at h
  · cases h
  · cases h; omega

theorem memWriteSeq_error_ge {bs : List Byte} : ∀ {m : Memory} {a e : Nat}, memWriteSeq m a bs = .error e →
    Config.memSize ≤ e := by
  induction bs with
  | nil => intro m a e h; cases h
  | cons b rest ih =>
    intro m a e h
    by_cases ha : a < Config.memSize
    · simp only [memWriteSeq, memWrite, ha, if_true] at h
      exact ih h
    · simp only [memWriteSeq, memWrite, ha, if_false] at h
      cases h; omega

theorem memReadSeq_error_ge {m : Memory} {a n e : Nat} (h : memReadSeq m a n = .error e) : Config.memSize ≤ e := by
  by_cases ha : a + n ≤ Config.memSize
  · cases (memReadSeq_ok m n a ha).symm.trans h
  · cases n with
    | zero => cases h
    | succ n =>
      cases (memReadSeq_error m (n + 1) a n.succ_pos (by omega)).symm.trans h
      exact Nat.le_max_right _ _

theorem drawRows_error_ge {m : Memory} {base x0 y0 e : Nat} (k : Nat) : ∀ {row : Nat} {acc : Display × Bool},
    drawRows m base x0 y0 k row acc = .error e → Config.memSize ≤ e := by
  induction k with
  | zero => intro row acc h; cases h
  | succ k ih =>
    intro row acc h
    cases hr : memRead m (base + row) with
    | error a =>
      simp only [drawRows, hr] at h
      cases h
      exact memRead_error_ge hr
    | ok b =>
      simp only [drawRows, hr] at h
      split at h
      · cases h
      · exact ih h

/-! ### The word of an instruction that accesses memory is an instruction -/

/-- A row count over 15 is cut to its low nibble by the encoder, so DXYN needs no bound on it here (R82). -/
theorem decodeWord_encode_drw (x y : Reg) (n : Nat) : (decodeWord (encode (.drw x y n))).isSome := by
  have hop : (fields (encode (.drw x y n))).op.toNat = 0xD := by
    have := x.isLt
    have := y.isLt
    rw [fields_op_toNat, encode, nibbles_toNat (by omega) x.isLt y.isLt (by omega)]
    omega
  simp [decodeWord, decodeFields, hop]

theorem decodeWord_encode_ldB : ∀ x : Reg, (decodeWord (encode (.ldB x))).isSome := by decide

theorem decodeWord_encode_ldStore : ∀ x : Reg, (decodeWord (encode (.ldStore x))).isSome := by decide

theorem decodeWord_encode_ldLoad : ∀ x : Reg, (decodeWord (encode (.ldLoad x))).isSome := by decide

/-! ### The records -/

theorem recordInv_of_run {s : State} (h : s.mode = .run) : s.recordInv :=
  fun _ hr => by cases h.symm.trans hr

theorem recordInv_of_fault {s : State} {r : FaultRec} (h : s.mode = .fault r) (hr : r.shape) : s.recordInv :=
  fun _ hr' => by cases h.symm.trans hr'; exact hr

/-- An access leaves no record, or the record of an address outside memory. -/
theorem orOutOfBounds_recordInv {α : Type} {i : Instr} {s t : State} {r : Except Nat α} {k : α → State}
    (h : orOutOfBounds i s r k = .next t) (hk : ∀ a, (k a).mode = .run)
    (hr : ∀ e, r = .error e → Config.memSize ≤ e) (hd : (decodeWord (encode i)).isSome) : t.recordInv := by
  obtain ⟨a, _, rfl⟩ | ⟨a, ha, rfl⟩ := orOutOfBounds_next h
  · exact recordInv_of_run (hk a)
  · exact recordInv_of_fault rfl ⟨rfl, rfl, ⟨a, rfl, hr a ha⟩, fun w hw => by cases hw; exact hd⟩

/-- Every instruction leaves no record or one of the shape of its kind, whatever the record before it. -/
theorem exec_recordInv {i : Instr} {s t : State} (h : exec i s = .next t) : t.recordInv := by
  cases i with
  | ret =>
    obtain ⟨_, rfl⟩ | ⟨_, rfl⟩ := exec_ret_next h
    · exact recordInv_of_run rfl
    · exact recordInv_of_fault rfl ⟨rfl, rfl, rfl, rfl⟩
  | call nnn =>
    obtain ⟨_, rfl⟩ | ⟨_, rfl⟩ := exec_call_next h
    · exact recordInv_of_run rfl
    · have hw : (encode (.call nnn)).toNat = 0x2 * 4096 + nnn.toNat := opAddr_toNat (by omega) nnn.isLt
      have := nnn.isLt
      exact recordInv_of_fault rfl ⟨rfl, rfl, ⟨_, rfl, by omega⟩, rfl⟩
  | ldB x => exact orOutOfBounds_recordInv h (fun _ => rfl) (fun _ => memWriteSeq_error_ge) (decodeWord_encode_ldB x)
  | ldStore x =>
    exact orOutOfBounds_recordInv h (fun _ => rfl) (fun _ => memWriteSeq_error_ge) (decodeWord_encode_ldStore x)
  | ldLoad x =>
    exact orOutOfBounds_recordInv h (fun bs => setRegsFrom_mode s.afterFetch 0 bs) (fun _ => memReadSeq_error_ge)
      (decodeWord_encode_ldLoad x)
  | drw x y n =>
    exact orOutOfBounds_recordInv h (fun _ => rfl) (fun _ => drawRows_error_ge n) (decodeWord_encode_drw x y n)
  | ldVxK x => cases h; exact fun _ hr => by cases hr
  | _ => cases h; exact recordInv_of_run rfl

theorem cycle_recordInv {s t : State} (h : cycle s = .next t) : t.recordInv := by
  obtain ⟨a, ha, rfl⟩ | ⟨w, hd, rfl⟩ | ⟨i, _, he⟩ := cycle_next h
  · exact recordInv_of_fault rfl ⟨rfl, rfl, ⟨a, rfl, ha⟩, fun w hw => by cases hw⟩
  · exact recordInv_of_fault rfl ⟨rfl, rfl, ⟨w, rfl, hd⟩, rfl⟩
  · exact exec_recordInv he

theorem resetMove_recordInv (s : State) : (resetMove s).recordInv := fun _ hr => by cases hr

theorem loadRom_recordInv (b : List Byte) {s : State} (hs : s.recordInv) : (loadRom b s).recordInv := by
  unfold loadRom
  split
  · exact recordInv_of_fault rfl ⟨rfl, rfl, rfl, rfl⟩
  · exact hs

/-- A delivery leaves the record alone: it happens in WAITKEY only (44_keys_timers.md R237). -/
theorem keyDeliver_recordInv (k : Key) {s : State} (hs : s.recordInv) : (keyDeliver k s).recordInv := by
  unfold keyDeliver
  split
  · exact recordInv_of_run rfl
  all_goals exact hs

theorem recordInv_keptByTransactions : KeptByTransactions State.recordInv where
  schedule _ _ hs := hs
  reset s _ := resetMove_recordInv s
  loadFont _ _ hs := hs
  loadRom _ b hs := loadRom_recordInv b hs
  tick _ hs := hs
  keyDeliver _ k hs := keyDeliver_recordInv k hs
  setKeys _ _ hs := hs
  cycle _ _ _ h := cycle_recordInv h

/-- Settles O49: every transaction leaves the record it found, none, or one of the shape of its kind. -/
theorem stepKeepsFaultRecordShape : Obligations.StepKeepsFaultRecordShape :=
  fun _ _ hs h => recordInv_keptByTransactions.step hs h

end Sys2Proof.Machine
end

section
/-! PROOF. The state after reset (10_state.md R35; 70_reset_and_hazards.md R300). -/

namespace Sys2Proof.Machine

open Sys2Proof

/-- The `reset` move is enabled in every mode (10_state.md R31). -/
theorem performMove_reset (s : State) : performMove .reset s = .next (resetMove s) :=
  performMove_enabled (by cases s.mode <;> rfl)

/-- Settles O42: the reset state is what the `reset` move leaves of it, and the move sets every field the table
names. -/
theorem resetLeavesTheTableOfResetValues : Obligations.ResetLeavesTheTableOfResetValues := by
  intro s t h
  obtain ⟨s₀, rfl⟩ : ∃ s₀, t = resetMove s₀ := by
    obtain rfl | h := h
    · exact ⟨State.reset, rfl⟩
    · exact ⟨s, by cases (performMove_reset s).symm.trans h; rfl⟩
  have hreg : ∀ r, (resetMove s₀).reg r = 0 := fun r => by simp [State.reg, resetMove, State.reset]
  have hstack : ∀ j : Fin 16, (resetMove s₀).stack[j] = 0 := fun j => by simp [resetMove, State.reset]
  exact ⟨rfl, hreg, rfl, rfl, rfl, rfl, hstack, pixel_clearDisplay, fun _ => rfl, rfl⟩

/-- Settles O50: the reset state is one that the `reset` move leaves, with no byte of memory listed. -/
theorem resetMeetsTheInvariants : Obligations.ResetMeetsTheInvariants :=
  ⟨rfl, resetMove_controlInv State.reset, resetMove_recordInv State.reset⟩

end Sys2Proof.Machine
end

section
/-! PROOF. The frame of every instruction (10_state.md R20 to R29; 20_memory.md R50; 92_eei_decisions.md D11). -/

namespace Sys2Proof.Machine

open Sys2Proof

/-! ### What an update adds to a frame -/

section Frame
variable {w : Reg → Prop} {ps : List Part} {s t : State}

theorem Unchanged.refl (s : State) : Unchanged w ps s s := by
  constructor <;> intros <;> rfl

/-- PC and the mode are in no frame. -/
theorem Unchanged.withPcMode (h : Unchanged w ps s t) (a : Word) (m : Mode) :
    Unchanged w ps s { t with pc := a, mode := m } := { h with }

theorem Unchanged.setReg (h : Unchanged w ps s t) {r : Reg} (hr : w r) (b : Byte) :
    Unchanged w ps s (t.setReg r b) :=
  { h with regs := fun q hq => (reg_setReg_other t b (fun e : q = r => hq (e ▸ hr))).trans (h.regs q hq) }

theorem Unchanged.withV (h : Unchanged w ps s t) {v : Vector Byte 16} (hv : ∀ r : Reg, ¬ w r → v[r] = t.reg r) :
    Unchanged w ps s { t with v := v } :=
  { h with regs := fun r hr => (hv r hr).trans (h.regs r hr) }

theorem Unchanged.withI (h : Unchanged w ps s t) (hp : Part.i ∈ ps) (a : Word) :
    Unchanged w ps s { t with i := a } := { h with i := fun hn => absurd hp hn }

theorem Unchanged.withDt (h : Unchanged w ps s t) (hp : Part.dt ∈ ps) (b : Byte) :
    Unchanged w ps s { t with dt := b } := { h with dt := fun hn => absurd hp hn }

theorem Unchanged.withSt (h : Unchanged w ps s t) (hp : Part.st ∈ ps) (b : Byte) :
    Unchanged w ps s { t with st := b } := { h with st := fun hn => absurd hp hn }

theorem Unchanged.withStack (h : Unchanged w ps s t) (hp : Part.stack ∈ ps) (a : Word) (d : Fin 17)
    (k : Vector Word 16) : Unchanged w ps s { t with pc := a, sp := d, stack := k } :=
  { h with sp := fun hn => absurd hp hn, stack := fun hn => absurd hp hn }

theorem Unchanged.withMem (h : Unchanged w ps s t) (hp : Part.memory ∈ ps) (m : Memory) :
    Unchanged w ps s { t with mem := m } := { h with memory := fun hn => absurd hp hn }

theorem Unchanged.withDisp (h : Unchanged w ps s t) (hp : Part.display ∈ ps) (d : Display) :
    Unchanged w ps s { t with disp := d } := { h with display := fun hn => absurd hp hn }

theorem Unchanged.withDraws (h : Unchanged w ps s t) (hp : Part.draws ∈ ps) (n : Nat) :
    Unchanged w ps s { t with draws := n } := { h with draws := fun hn => absurd hp hn }

theorem Unchanged.afterFetch (s : State) : Unchanged w ps s s.afterFetch := (Unchanged.refl s).withPcMode _ _

theorem Unchanged.raise (k : FaultKind) (wd : Option Word) (a : Option Nat) (s : State) :
    Unchanged w ps s (raise k wd a s) := (Unchanged.refl s).withPcMode _ _

/-- An access changes nothing when it faults. -/
theorem Unchanged.orOutOfBounds {α : Type} {i : Instr} {r : Except Nat α} {k : α → State}
    (h : orOutOfBounds i s r k = .next t) (hk : ∀ a, r = .ok a → Unchanged w ps s (k a)) : Unchanged w ps s t := by
  obtain ⟨a, hr, rfl⟩ | ⟨a, _, rfl⟩ := orOutOfBounds_next h
  · exact hk a hr
  · exact .raise _ _ _ s

end Frame

/-- A block load from V0 writes the registers up to the last one it has a byte for. -/
theorem Unchanged.setRegsFrom_zero {ps : List Part} {s t : State} {x : Reg} {bs : List Byte}
    (h : Unchanged (· ≤ x) ps s t) (hl : bs.length = x.val + 1) :
    Unchanged (· ≤ x) ps s (t.setRegsFrom 0 bs) := by
  have hv : ∀ r : Reg, ¬ r ≤ x → (t.setRegsFrom 0 bs).reg r = t.reg r := by
    intro r hr
    have hr' : bs.length ≤ r.val := by rw [hl]; exact Nat.lt_of_not_le hr
    simp [reg_setRegsFrom, List.getElem?_eq_none hr']
  rw [setRegsFrom_eq_withV]
  exact h.withV hv

/-! ### The frame, instruction by instruction -/

/-- Every instruction writes no register and no part of the state but those its row names. -/
theorem exec_unchanged {i : Instr} {s t : State} (h : exec i s = .next t) :
    Unchanged (writesReg i) (writtenParts i) s t := by
  have hf : Unchanged (writesReg i) (writtenParts i) s s.afterFetch := .afterFetch s
  cases i with
  | jp _ | jpV0 _ | seImm _ _ | sneImm _ _ | seReg _ _ | sneReg _ _ | skp _ | sknp _ | ldVxK _ =>
    cases h; exact hf.withPcMode _ _
  | ldImm _ _ | addImm _ _ | ldReg _ _ | orReg _ _ | andReg _ _ | xorReg _ _ | ldVxDt _ =>
    cases h; exact hf.setReg rfl _
  | addReg _ _ | subReg _ _ | subnReg _ _ => cases h; exact (hf.setReg (.inl rfl) _).setReg (.inr rfl) _
  | shrReg _ _ | shlReg _ _ => cases h; exact (hf.setReg (.inr rfl) _).setReg (.inl rfl) _
  | rnd _ _ => cases h; exact (hf.setReg rfl _).withDraws (.head _) _
  | ldI _ | addI _ | ldF _ => cases h; exact hf.withI (.head _) _
  | ldDt _ => cases h; exact hf.withDt (.head _) _
  | ldSt _ => cases h; exact hf.withSt (.head _) _
  | cls => cases h; exact hf.withDisp (.head _) _
  | ret =>
    obtain ⟨_, rfl⟩ | ⟨_, rfl⟩ := exec_ret_next h
    · exact hf.withStack (.head _) _ _ _
    · exact .raise _ _ _ s
  | call nnn =>
    obtain ⟨_, rfl⟩ | ⟨_, rfl⟩ := exec_call_next h
    · exact hf.withStack (.head _) _ _ _
    · exact .raise _ _ _ s
  | ldB _ | ldStore _ => exact .orOutOfBounds h (fun _ _ => hf.withMem (.head _) _)
  | drw _ _ _ => exact .orOutOfBounds h (fun _ _ => (hf.setReg rfl _).withDisp (.head _) _)
  | ldLoad _ => exact .orOutOfBounds h (fun _ hr => hf.setRegsFrom_zero (memReadSeq_length hr))

/-! ### The rest of the part an instruction writes -/

/-- FX33 keeps every byte outside `I` to `I + 2`. -/
theorem exec_ldB_keeps_memory {x : Reg} {s t : State} (h : exec (.ldB x) s = .next t) {a : Nat}
    (ha : a < indexAddr s 0 ∨ indexAddr s 2 < a) : t.mem.read a = s.mem.read a := by
  obtain ⟨m, hm, rfl⟩ | ⟨_, _, rfl⟩ := orOutOfBounds_next h
  · exact memWriteSeq_frame hm (ha.imp_right Nat.succ_le_of_lt)
  · rfl

/-- FX55 keeps every byte outside `I` to `I + X`. -/
theorem exec_ldStore_keeps_memory {x : Reg} {s t : State} (h : exec (.ldStore x) s = .next t) {a : Nat}
    (ha : a < indexAddr s 0 ∨ indexAddr s x < a) : t.mem.read a = s.mem.read a := by
  obtain ⟨m, hm, rfl⟩ | ⟨_, _, rfl⟩ := orOutOfBounds_next h
  · refine memWriteSeq_frame hm (ha.imp_right fun hx => ?_)
    rw [regsThrough_length]
    exact Nat.succ_le_of_lt hx
  · rfl

/-- 2NNN keeps every stack entry but the one at the old depth. -/
theorem exec_call_keeps_entry {nnn : Addr12} {s t : State} (h : exec (.call nnn) s = .next t) {j : Fin 16}
    (hj : j.val ≠ s.sp.val) : t.stack[j] = s.stack[j] := by
  obtain ⟨_, rfl⟩ | ⟨_, rfl⟩ := exec_call_next h
  · simp [State.called, hj.symm]
  · rfl

/-- 00EE keeps every stack entry, the popped one included (R34). -/
theorem exec_ret_keeps_stack {s t : State} (h : exec .ret s = .next t) : t.stack = s.stack := by
  obtain ⟨_, rfl⟩ | ⟨_, rfl⟩ := exec_ret_next h <;> rfl

/-- DXYN keeps every pixel its sprite lays no bit over. -/
theorem exec_drw_keeps_pixel {x y : Reg} {n : Nat} {s t : State} (h : exec (.drw x y n) s = .next t) {a b : Nat}
    (hb : spriteBit s.mem (indexAddr s 0) (originX s x) (originY s y) n a b = false) :
    pixel t.disp a b = pixel s.disp a b := by
  obtain ⟨res, hr, rfl⟩ | ⟨_, _, rfl⟩ := orOutOfBounds_next h
  · exact drawRows_frame (Nat.le_of_lt (Nat.mod_lt _ (by decide))) hr hb
  · rfl

/-- Settles O51: the frame of the instruction, and the rest of the part it writes. -/
theorem everyInstructionKeepsItsFrame : Obligations.EveryInstructionKeepsItsFrame := by
  intro i s t h
  refine ⟨exec_unchanged h, ?_, ?_, ?_, ?_, ?_⟩
  · rintro x rfl a ha; exact exec_ldB_keeps_memory h ha
  · rintro x rfl a ha; exact exec_ldStore_keeps_memory h ha
  · rintro nnn rfl j hj; exact exec_call_keeps_entry h hj
  · rintro rfl; exact exec_ret_keeps_stack h
  · rintro x y n rfl a b hb; exact exec_drw_keeps_pixel h hb

end Sys2Proof.Machine
end

section
/-! PROOF. VF is read only by an instruction that names it (10_state.md R22). -/

namespace Sys2Proof.Machine

open Sys2Proof

/-! ### Two register writes -/

theorem setReg_setReg_same (s : State) (r : Reg) (a b : Byte) : (s.setReg r a).setReg r b = s.setReg r b :=
  congrArg (fun v => { s with v := v }) (Vector.set_set ..)

theorem setReg_comm (s : State) {r q : Reg} (a b : Byte) (h : r ≠ q) :
    (s.setReg r a).setReg q b = (s.setReg q b).setReg r a :=
  congrArg (fun v => { s with v := v }) (Vector.set_comm _ _ (fun e => h (Fin.ext e)))

/-! ### States that differ in VF at most -/

/-- The states are one when VF is cleared in both. -/
def SameButFlag (t t' : State) : Prop := t'.setReg Reg.vf 0 = t.setReg Reg.vf 0

theorem sameButFlag_setReg (t : State) (b : Byte) : SameButFlag t (t.setReg Reg.vf b) :=
  setReg_setReg_same t Reg.vf b 0

/-- The same write to both states, of VF or of another register. -/
theorem SameButFlag.setReg {t t' : State} (h : SameButFlag t t') (r : Reg) (b : Byte) :
    SameButFlag (t.setReg r b) (t'.setReg r b) := by
  unfold SameButFlag at *
  by_cases hr : r = Reg.vf
  · rw [hr, setReg_setReg_same, setReg_setReg_same, ← setReg_setReg_same t' Reg.vf 0, h, setReg_setReg_same]
  · rw [setReg_comm t' b 0 hr, setReg_comm t b 0 hr, h]

theorem SameButFlag.withDraws {t t' : State} (h : SameButFlag t t') (n : Nat) :
    SameButFlag { t with draws := n } { t' with draws := n } := by
  have hn := congrArg (fun q : State => { q with draws := n }) h
  exact hn

theorem SameButFlag.withDisp {t t' : State} (h : SameButFlag t t') (d : Display) :
    SameButFlag { t with disp := d } { t' with disp := d } := by
  have hd := congrArg (fun q : State => { q with disp := d }) h
  exact hd

theorem SameButFlag.setRegsFrom {t t' : State} (h : SameButFlag t t') (bs : List Byte) (r : Nat) :
    SameButFlag (t.setRegsFrom r bs) (t'.setRegsFrom r bs) := by
  induction bs generalizing t t' r with
  | nil => exact h
  | cons b rest ih =>
    unfold State.setRegsFrom
    split
    · exact ih (h.setReg _ b) (r + 1)
    · exact h

/-! ### Reads that do not see VF -/

theorem targetPlusV0_setReg_vf (s : State) (b : Byte) (nnn : Addr12) :
    targetPlusV0 (s.setReg Reg.vf b) nnn = targetPlusV0 s nnn := by
  rw [targetPlusV0, targetPlusV0, reg_setReg_other s b (by decide)]

theorem keyIsDown_setReg_vf (s : State) {x : Reg} (b : Byte) (hx : x ≠ Reg.vf) :
    keyIsDown (s.setReg Reg.vf b) x = keyIsDown s x := by
  simp only [keyIsDown, testedKey, reg_setReg_other s b hx, setReg_keyDown]

theorem regsThrough_setReg_vf (s : State) {x : Reg} (b : Byte) (hx : x ≠ Reg.vf) :
    regsThrough (s.setReg Reg.vf b) x = regsThrough s x := by
  have hlt : x.val + 1 ≤ Reg.vf.val := Nat.lt_of_le_of_ne (Nat.le_of_lt_succ x.isLt) (fun e => hx (Fin.ext e))
  simp only [regsThrough, State.setReg, Vector.toList_set]
  exact List.take_set_of_le hlt

/-! ### The instructions -/

/-- An instruction that does not name VF takes the same branch whatever VF is, for every register it reads is another
one; and its writes are of the same values. -/
theorem exec_setReg_vf {i : Instr} {s t : State} (b : Byte) (hn : ¬ namesVf i) (h : exec i s = .next t) :
    ∃ t', exec i (s.setReg Reg.vf b) = .next t' ∧ SameButFlag t t' := by
  have hs : SameButFlag s.afterFetch (s.setReg Reg.vf b).afterFetch := sameButFlag_setReg s.afterFetch b
  have hreg {x : Reg} (hx : x ≠ Reg.vf) : (s.setReg Reg.vf b).reg x = s.reg x := reg_setReg_other s b hx
  cases i with
  | cls | jp _ | ldI _ | ldVxK _ => cases h; exact ⟨_, rfl, sameButFlag_setReg _ b⟩
  | ret =>
    obtain ⟨hp, rfl⟩ | ⟨h0, rfl⟩ := exec_ret_next h
    · exact ⟨_, exec_ret_of_pos (s := s.setReg Reg.vf b) hp, sameButFlag_setReg _ b⟩
    · exact ⟨_, exec_ret_of_empty (s := s.setReg Reg.vf b) h0, sameButFlag_setReg _ b⟩
  | call nnn =>
    obtain ⟨hl, rfl⟩ | ⟨h16, rfl⟩ := exec_call_next h
    · exact ⟨_, exec_call_of_lt nnn (s := s.setReg Reg.vf b) hl, sameButFlag_setReg _ b⟩
    · exact ⟨_, exec_call_of_full nnn (s := s.setReg Reg.vf b) h16, sameButFlag_setReg _ b⟩
  | jpV0 nnn => cases h; exact ⟨_, rfl, by rw [targetPlusV0_setReg_vf]; exact sameButFlag_setReg _ b⟩
  | seImm x _ | sneImm x _ | ldDt x | ldSt x | addI x | ldF x =>
    cases h; exact ⟨_, rfl, by rw [hreg hn]; exact sameButFlag_setReg _ b⟩
  | seReg x y | sneReg x y =>
    obtain ⟨hx, hy⟩ := not_or.1 hn
    cases h; exact ⟨_, rfl, by rw [hreg hx, hreg hy]; exact sameButFlag_setReg _ b⟩
  | skp x | sknp x =>
    cases h; exact ⟨_, rfl, by rw [keyIsDown_setReg_vf s b hn]; exact sameButFlag_setReg _ b⟩
  | ldImm x _ | ldVxDt x => cases h; exact ⟨_, rfl, hs.setReg x _⟩
  | addImm x _ => cases h; exact ⟨_, rfl, by rw [hreg hn]; exact hs.setReg x _⟩
  | ldReg x y =>
    obtain ⟨_, hy⟩ := not_or.1 hn
    cases h; exact ⟨_, rfl, by rw [hreg hy]; exact hs.setReg x _⟩
  | orReg x y | andReg x y | xorReg x y =>
    obtain ⟨hx, hy⟩ := not_or.1 hn
    cases h; exact ⟨_, rfl, by rw [hreg hx, hreg hy]; exact hs.setReg x _⟩
  | addReg x y | subReg x y | subnReg x y =>
    obtain ⟨hx, hy⟩ := not_or.1 hn
    cases h; exact ⟨_, rfl, by rw [hreg hx, hreg hy]; exact (hs.setReg x _).setReg Reg.vf _⟩
  | shrReg x y | shlReg x y =>
    cases h
    refine ⟨_, rfl, ?_⟩
    simp only [reg_setReg_other _ _ hn, reg_afterFetch]
    exact (hs.setReg Reg.vf _).setReg x _
  | rnd x _ => cases h; exact ⟨_, rfl, (hs.setReg x _).withDraws _⟩
  | ldB x =>
    exact orOutOfBounds_related (R := SameButFlag) h (by rw [hreg hn]; rfl) (fun _ => sameButFlag_setReg _ b)
      (fun _ _ => sameButFlag_setReg _ b)
  | ldStore x =>
    exact orOutOfBounds_related (R := SameButFlag) h (by rw [regsThrough_setReg_vf s b hn]; rfl)
      (fun _ => sameButFlag_setReg _ b) (fun _ _ => sameButFlag_setReg _ b)
  | ldLoad x =>
    exact orOutOfBounds_related (R := SameButFlag) h rfl (fun bs => hs.setRegsFrom bs 0)
      (fun _ _ => sameButFlag_setReg _ b)
  | drw x y n =>
    obtain ⟨hx, hy⟩ := not_or.1 hn
    exact orOutOfBounds_related (R := SameButFlag) h (by rw [originX, originY, hreg hx, hreg hy]; rfl)
      (fun r => (hs.setReg Reg.vf (collisionFlag r.2)).withDisp r.1)
      (fun _ _ => sameButFlag_setReg _ b)

/-- Settles O52: the states the instruction leaves are one when VF is cleared in both. -/
theorem flagIsReadOnlyByName : Obligations.FlagIsReadOnlyByName :=
  fun _ b _ _ hn h => exec_setReg_vf b hn h

end Sys2Proof.Machine
end

section
/-! PROOF. Memory stays in canonical form and inside the address space (10_state.md R28; 20_memory.md R50). -/

namespace Sys2Proof.Machine

open Sys2Proof

/-- Every instruction leaves memory as it was, or is one whose sequence of writes was all in range. -/
theorem exec_mem {i : Instr} {s t : State} (h : exec i s = .next t) :
    t.mem = s.mem ∨ ∃ a bs, memWriteSeq s.mem a bs = .ok t.mem := by
  cases i with
  | ret => obtain ⟨_, rfl⟩ | ⟨_, rfl⟩ := exec_ret_next h <;> exact .inl rfl
  | call nnn => obtain ⟨_, rfl⟩ | ⟨_, rfl⟩ := exec_call_next h <;> exact .inl rfl
  | ldB _ | ldStore _ =>
    obtain ⟨m, hm, rfl⟩ | ⟨_, _, rfl⟩ := orOutOfBounds_next h
    · exact .inr ⟨_, _, hm⟩
    · exact .inl rfl
  | ldLoad _ =>
    obtain ⟨bs, _, rfl⟩ | ⟨_, _, rfl⟩ := orOutOfBounds_next h
    · exact .inl (by rw [setRegsFrom_eq_withV]; rfl)
    · exact .inl rfl
  | drw _ _ _ => obtain ⟨_, _, rfl⟩ | ⟨_, _, rfl⟩ := orOutOfBounds_next h <;> exact .inl rfl
  | _ => cases h; exact .inl rfl

/-- The canonical form is of the memory alone. -/
theorem State.memInv.congr {s t : State} (hs : s.memInv) (hm : t.mem = s.mem) : t.memInv := by
  unfold State.memInv
  rw [hm]
  exact hs

theorem exec_keeps_memInv {i : Instr} {s t : State} (hs : s.memInv) (h : exec i s = .next t) : t.memInv := by
  obtain hm | ⟨a, bs, hm⟩ := exec_mem h
  · exact hs.congr hm
  · exact memWriteSeq_wf bs hs hm

@[simp] theorem keyDeliver_mem (k : Key) (s : State) : (keyDeliver k s).mem = s.mem := by
  unfold keyDeliver; split <;> rfl

theorem memInv_keptByTransactions : KeptByTransactions State.memInv where
  schedule _ _ hs := hs
  reset _ _ := rfl
  loadFont _ _ hs := loadFont_wf hs
  loadRom _ _ hs := loadRom_wf hs
  tick _ hs := hs
  keyDeliver s k hs := hs.congr (keyDeliver_mem k s)
  setKeys _ _ hs := hs
  cycle s t hs h := by
    obtain ⟨_, _, rfl⟩ | ⟨_, _, rfl⟩ | ⟨i, _, he⟩ := cycle_next h
    · exact hs
    · exact hs
    · exact exec_keeps_memInv hs he

/-- Settles O47: the loaders write below 4096, an instruction's writes are bounds-checked, and nothing else writes. -/
theorem stepKeepsMemoryCanonical : Obligations.StepKeepsMemoryCanonical :=
  fun _ _ hs h => memInv_keptByTransactions.step hs h

end Sys2Proof.Machine
end

section
/-! PROOF. What an instruction does not look at: the host's schedule, and the timers unless it names one (20_memory.md
R61; 60_exceptions.md R267). -/

namespace Sys2Proof.Machine

open Sys2Proof

/-- FX07, FX15 and FX18, the instructions whose operand is a timer (44_keys_timers.md R233 to R235). -/
def NamesTimer (i : Instr) : Prop := ∃ x, i = .ldVxDt x ∨ i = .ldDt x ∨ i = .ldSt x

/-- `s` with `f` applied to its timers and `g` to its schedule: a tick, and a change of the schedule, are both so. -/
def State.mapTimersSchedule (f : Byte → Byte) (g : List HostMove → List HostMove) (s : State) : State :=
  { s with dt := f s.dt, st := f s.st, schedule := g s.schedule }

/-- `s` with the schedule `l` in place of its own. -/
def State.withSchedule (s : State) (l : List HostMove) : State := { s with schedule := l }

theorem tick_eq_mapTimersSchedule (s : State) : tick s = s.mapTimersSchedule countDown id := rfl

theorem withSchedule_eq_mapTimersSchedule (s : State) (l : List HostMove) :
    s.withSchedule l = s.mapTimersSchedule id (fun _ => l) := rfl

theorem withSchedule_self {s : State} {l : List HostMove} (h : s.schedule = l) : s.withSchedule l = s := by
  rw [← h]; rfl

section MapTimersSchedule
variable (f : Byte → Byte) (g : List HostMove → List HostMove)

theorem setRegsFrom_mapTimersSchedule (bs : List Byte) (s : State) (r : Nat) :
    (s.mapTimersSchedule f g).setRegsFrom r bs = (s.setRegsFrom r bs).mapTimersSchedule f g :=
  setRegsFrom_comm bs s r (·.mapTimersSchedule f g) rfl (fun _ => rfl)

/-- An access that does not look at the timers and the schedule leaves them to its continuation. -/
theorem orOutOfBounds_mapTimersSchedule {α : Type} {i : Instr} {s t : State} {r : Except Nat α} {k k' : α → State}
    (h : orOutOfBounds i s r k = .next t) (hk : ∀ a, k' a = (k a).mapTimersSchedule f g) :
    orOutOfBounds i (s.mapTimersSchedule f g) r k' = .next (t.mapTimersSchedule f g) := by
  obtain ⟨t', he, rfl⟩ := orOutOfBounds_related (R := fun t t' => t' = t.mapTimersSchedule f g)
    (s' := s.mapTimersSchedule f g) h rfl hk (fun _ _ => rfl)
  exact he

/-- An instruction commutes with a change of the schedule, and of the timers unless it names one. -/
theorem exec_mapTimersSchedule {i : Instr} {s t : State} (hi : NamesTimer i → f = id) (h : exec i s = .next t) :
    exec i (s.mapTimersSchedule f g) = .next (t.mapTimersSchedule f g) := by
  cases i with
  | ldVxDt x => obtain rfl := hi ⟨x, .inl rfl⟩; cases h; rfl
  | ldDt x => obtain rfl := hi ⟨x, .inr (.inl rfl)⟩; cases h; rfl
  | ldSt x => obtain rfl := hi ⟨x, .inr (.inr rfl)⟩; cases h; rfl
  | ret =>
    obtain ⟨hp, rfl⟩ | ⟨h0, rfl⟩ := exec_ret_next h
    · exact exec_ret_of_pos (s := s.mapTimersSchedule f g) hp
    · exact exec_ret_of_empty (s := s.mapTimersSchedule f g) h0
  | call nnn =>
    obtain ⟨hl, rfl⟩ | ⟨h16, rfl⟩ := exec_call_next h
    · exact exec_call_of_lt nnn (s := s.mapTimersSchedule f g) hl
    · exact exec_call_of_full nnn (s := s.mapTimersSchedule f g) h16
  | ldB _ | ldStore _ | drw _ _ _ => exact orOutOfBounds_mapTimersSchedule f g h (fun _ => rfl)
  | ldLoad _ =>
    exact orOutOfBounds_mapTimersSchedule f g h (fun bs => setRegsFrom_mapTimersSchedule f g bs s.afterFetch 0)
  | _ => cases h; rfl

end MapTimersSchedule

/-- Settles O36: a tick is a change of the timers, which the instruction does not name. -/
theorem tickCommutesWithOtherInstructions : Obligations.TickCommutesWithOtherInstructions := by
  intro i s t hvx hdt hst h
  have hi : ¬ NamesTimer i := by
    rintro ⟨x, hx | hx | hx⟩
    · exact hvx x hx
    · exact hdt x hx
    · exact hst x hx
  rw [tick_eq_mapTimersSchedule, tick_eq_mapTimersSchedule]
  exact exec_mapTimersSchedule countDown id (fun hn => absurd hn hi) h

/-! ### No transaction looks at the schedule -/

theorem exec_withSchedule {i : Instr} {s t : State} (l : List HostMove) (h : exec i s = .next t) :
    exec i (s.withSchedule l) = .next (t.withSchedule l) := by
  rw [withSchedule_eq_mapTimersSchedule, withSchedule_eq_mapTimersSchedule]
  exact exec_mapTimersSchedule id (fun _ => l) (fun _ => rfl) h

theorem cycle_withSchedule {s t : State} (l : List HostMove) (h : cycle s = .next t) :
    cycle (s.withSchedule l) = .next (t.withSchedule l) := by
  obtain ⟨a, hf, he⟩ | ⟨w, hf, hd, he⟩ | ⟨w, i, hf, hd, he⟩ := cycle_cases s
  · cases he.symm.trans h; exact cycle_of_fetch_error (s := s.withSchedule l) hf
  · cases he.symm.trans h; exact cycle_of_unknown (s := s.withSchedule l) hf hd
  · exact (cycle_of_decode (s := s.withSchedule l) hf hd).trans (exec_withSchedule l (he.symm.trans h))

theorem loadRom_withSchedule (b : List Byte) (s : State) (l : List HostMove) :
    loadRom b (s.withSchedule l) = (loadRom b s).withSchedule l := by
  unfold loadRom; split <;> rfl

theorem keyDeliver_withSchedule (k : Key) (s : State) (l : List HostMove) :
    keyDeliver k (s.withSchedule l) = (keyDeliver k s).withSchedule l := by
  obtain ⟨v, pc, i, dt, st, sp, stack, mem, disp, mode, keyDown, draws, schedule⟩ := s
  cases mode <;> rfl

/-- A host move does the same whatever is scheduled after it, and leaves that as it is. -/
theorem performMove_withSchedule {m : HostMove} {s t : State} (l : List HostMove) (h : performMove m s = .next t) :
    performMove m (s.withSchedule l) = .next (t.withSchedule l) := by
  cases he : enabled s.mode m with
  | false => cases (performMove_disabled he).symm.trans h
  | true =>
    rw [performMove_enabled he] at h
    rw [performMove_enabled (s := s.withSchedule l) he]
    cases m with
    | step => exact cycle_withSchedule l h
    | loadRom b => cases h; exact congrArg _ (loadRom_withSchedule b s l)
    | keyDeliver k => cases h; exact congrArg _ (keyDeliver_withSchedule k s l)
    | reset | loadFont _ | tick | setKeys _ => cases h; rfl

theorem performMove_schedule {m : HostMove} {s t : State} (h : performMove m s = .next t) :
    t.schedule = s.schedule := by
  have ht : t = t.withSchedule s.schedule := by
    injection h.symm.trans (performMove_withSchedule s.schedule h)
  rw [ht]; rfl

/-- A step performs the oldest scheduled move as the host would, and takes no other off the schedule. -/
theorem step_withSchedule_cons {m : HostMove} {s t : State} (rest : List HostMove) (h : performMove m s = .next t) :
    step (s.withSchedule (m :: rest)) = .next (t.withSchedule rest) :=
  (step_of_move (s := s.withSchedule (m :: rest)) rfl).trans (performMove_withSchedule (s := s) rest h)

/-- A run of the host's moves starts with the first of them. -/
theorem runMoves_cons_next {m : HostMove} {rest : List HostMove} {s t : State} (h : runMoves (m :: rest) s = .next t) :
    ∃ s', performMove m s = .next s' ∧ runMoves rest s' = .next t := by
  unfold runMoves at h
  split at h
  · exact ⟨_, ‹_›, h⟩
  · cases h
  · cases h

/-- Settles O12, by induction on the moves: each is the step that finds it at the head of the schedule. -/
theorem everyTransactionOrderIsARun : Obligations.EveryTransactionOrderIsARun := by
  intro ms
  induction ms with
  | nil =>
    intro s t hs h
    cases h
    exact (core_run_zero (s.withSchedule [])).trans (congrArg _ (withSchedule_self hs))
  | cons m rest ih =>
    intro s t hs h
    obtain ⟨s', hm, hrest⟩ := runMoves_cons_next h
    have hs' : s'.schedule = [] := (performMove_schedule hm).trans hs
    exact (core_run_next (step_withSchedule_cons rest hm)).trans (ih s' t hs' hrest)

end Sys2Proof.Machine
end

section
/-! PROOF. A fetch: which bytes it needs, and what it reads after a block store (20_memory.md R56, R65). -/

namespace Sys2Proof.Machine

open Sys2Proof

/-- The word a fetch in range reads, high byte first. -/
theorem fetchWord_toNat {m : Memory} {a : Nat} (h : a + 1 < Config.memSize) :
    ∃ w, fetchWord m a = .ok w ∧ w.toNat = (m.read a).toNat * 256 + (m.read (a + 1)).toNat :=
  ⟨_, fetchWord_ok h, wordOfBytes_toNat _ _⟩

/-- A `step` transaction is a cycle in the modes that enable it. -/
theorem performMove_step {s : State} (hc : s.canStep) : performMove .step s = cycle s := by
  have he : enabled s.mode .step = true := by obtain hm | hm := hc <;> rw [hm] <;> rfl
  exact performMove_enabled he

/-- Settles O7: the second byte's address is the first out of range at 4095 only, and the fault is the cycle's own. -/
theorem fetchNeedsBothBytesInRange : Obligations.FetchNeedsBothBytesInRange := by
  refine ⟨fun m a => ⟨fetchWord_toNat, fun ha => ?_, ?_⟩, fun s hc hpc => ?_⟩
  · rw [fetchWord_error (Nat.le_succ_of_le ha), Nat.max_eq_left ha]
  · rintro rfl; exact fetchWord_error (Nat.le_refl _)
  · rw [performMove_step hc, cycle_of_fetch_error (fetchWord_error hpc)]
    rfl

/-- FX55 in range leaves the bytes of V0 to VX in memory (43_index_memory.md R204). -/
theorem exec_ldStore_of_lt {x : Reg} {s : State} (h : indexAddr s x < Config.memSize) :
    exec (.ldStore x) s =
      .next { s.afterFetch with mem := s.mem.writeBytes (indexAddr s 0) (regsThrough s x) } := by
  refine orOutOfBounds_ok (memWriteSeq_ok _ _ _ ?_)
  rw [regsThrough_length]
  exact Nat.succ_le_of_lt h

/-- The byte at `I + k` after V0 to VX are written from `I` up. -/
theorem read_writeBytes_regsThrough (m : Memory) (s : State) {x k : Reg} (h : k ≤ x) :
    (m.writeBytes (indexAddr s 0) (regsThrough s x)).read (indexAddr s k) = s.reg k := by
  have hoff : indexAddr s k - indexAddr s 0 = k.val := Nat.add_sub_cancel_left ..
  have hle : indexAddr s 0 ≤ indexAddr s k := Nat.add_le_add_left k.val.zero_le _
  rw [Memory.read_writeBytes, if_pos hle, hoff, regsThrough_getElem? s x k h]
  rfl

/-- Settles O24: the two bytes the fetch reads are those the store wrote for the two registers. -/
theorem storedBytesAreFetched : Obligations.StoredBytesAreFetched := by
  intro x k k' s t hx hk hr h
  cases (exec_ldStore_of_lt hr).symm.trans h
  have hkx : k ≤ x := Fin.le_def.2 (by have := Fin.le_def.1 hx; omega)
  have hnext : indexAddr s k + 1 = indexAddr s k' := by simp only [indexAddr]; omega
  have hfetch : indexAddr s k + 1 < Config.memSize := by
    rw [hnext]
    exact Nat.lt_of_le_of_lt (Nat.add_le_add_left (Fin.le_def.1 hx) _) hr
  obtain ⟨w, hw, hval⟩ := fetchWord_toNat (m := s.mem.writeBytes (indexAddr s 0) (regsThrough s x)) hfetch
  rw [hnext, read_writeBytes_regsThrough s.mem s hkx, read_writeBytes_regsThrough s.mem s hx] at hval
  exact ⟨w, hw, hval⟩

end Sys2Proof.Machine
end

section
/-! PROOF. The decoder and the encoder are inverse (30_encoding.md R84): the switch reads the fields back from the word
they build, and the fields of a word build it again. -/

namespace Sys2Proof

/-! ### The fields of the words the encoder builds -/

theorem fields_opAddr {op : Nat} (ho : op < 16) (nnn : Addr12) :
    (fields (opAddr op nnn.toNat)).op.toNat = op ∧ (fields (opAddr op nnn.toNat)).nnn = nnn := by
  have := nnn.isLt
  refine ⟨?_, BitVec.eq_of_toNat_eq ?_⟩
  · rw [fields_op_toNat, opAddr_toNat ho nnn.isLt]; omega
  · rw [fields_nnn_toNat, opAddr_toNat ho nnn.isLt]; omega

theorem fields_regByte {op nn : Nat} (ho : op < 16) (x : Reg) (hn : nn < 256) :
    (fields (regByte op x nn)).op.toNat = op ∧ (fields (regByte op x nn)).x = x ∧
      (fields (regByte op x nn)).nn = BitVec.ofNat 8 nn := by
  have := x.isLt
  refine ⟨?_, Fin.ext ?_, BitVec.eq_of_toNat_eq ?_⟩
  · rw [fields_op_toNat, regByte_toNat ho x.isLt hn]; omega
  · rw [fields_x_val, regByte_toNat ho x.isLt hn]; omega
  · rw [fields_nn_toNat, regByte_toNat ho x.isLt hn, BitVec.toNat_ofNat]; omega

theorem fields_nibbles {op n : Nat} (ho : op < 16) (x y : Reg) (hn : n < 16) :
    (fields (nibbles op x y n)).op.toNat = op ∧ (fields (nibbles op x y n)).x = x ∧
      (fields (nibbles op x y n)).y = y ∧ (fields (nibbles op x y n)).n = BitVec.ofNat 4 n := by
  have := x.isLt
  have := y.isLt
  refine ⟨?_, Fin.ext ?_, Fin.ext ?_, BitVec.eq_of_toNat_eq ?_⟩
  · rw [fields_op_toNat, nibbles_toNat ho x.isLt y.isLt hn]; omega
  · rw [fields_x_val, nibbles_toNat ho x.isLt y.isLt hn]; omega
  · rw [fields_y_val, nibbles_toNat ho x.isLt y.isLt hn]; omega
  · rw [fields_n_toNat, nibbles_toNat ho x.isLt y.isLt hn, BitVec.toNat_ofNat]; omega

/-! ### The word that given fields build -/

theorem opAddr_eq_of_fields {w : Word} {op nnn : Nat} (ho : (fields w).op.toNat = op) (hn : (fields w).nnn.toNat = nnn) :
    opAddr op nnn = w := by
  have := w.isLt
  rw [fields_op_toNat] at ho
  rw [fields_nnn_toNat] at hn
  refine BitVec.eq_of_toNat_eq ?_
  rw [opAddr_toNat (by omega) (by omega)]
  omega

theorem regByte_eq_of_fields {w : Word} {op nn : Nat} (ho : (fields w).op.toNat = op) (hn : (fields w).nn.toNat = nn) :
    regByte op (fields w).x nn = w := by
  have := w.isLt
  rw [fields_op_toNat] at ho
  rw [fields_nn_toNat] at hn
  refine BitVec.eq_of_toNat_eq ?_
  rw [fields_x_val, regByte_toNat (by omega) (by omega) (by omega)]
  omega

theorem nibbles_eq_of_fields {w : Word} {op n : Nat} (ho : (fields w).op.toNat = op) (hn : (fields w).n.toNat = n) :
    nibbles op (fields w).x (fields w).y n = w := by
  have := w.isLt
  rw [fields_op_toNat] at ho
  rw [fields_n_toNat] at hn
  refine BitVec.eq_of_toNat_eq ?_
  rw [fields_x_val, fields_y_val, nibbles_toNat (by omega) (by omega) (by omega) (by omega)]
  omega

/-! ### From the instruction to its word and back -/

/-- The encoding, by its format, gives the switch the fields it selects on and the operands it builds from. -/
theorem decodeWord_encode {i : Instr} (hi : i.wellFormed = true) : decodeWord (encode i) = some i := by
  cases i with
  | cls | ret => decide
  | jp nnn | call nnn | ldI nnn | jpV0 nnn => simp [encode, decodeWord, decodeFields, fields_opAddr]
  | seImm x nn | sneImm x nn | ldImm x nn | addImm x nn | rnd x nn =>
    simp [encode, decodeWord, decodeFields, fields_regByte, nn.isLt]
  | seReg x y | sneReg x y => simp [encode, decodeWord, decodeFields, fields_nibbles]
  | ldReg x y | orReg x y | andReg x y | xorReg x y | addReg x y | subReg x y | shrReg x y | subnReg x y | shlReg x y =>
    simp [encode, decodeWord, decodeFields, decodeOp8, fields_nibbles]
  | drw x y n =>
    have hn : n < 16 := of_decide_eq_true hi
    simp [encode, decodeWord, decodeFields, fields_nibbles, Nat.mod_eq_of_lt hn, hn]
  | skp x | sknp x => simp [encode, decodeWord, decodeFields, decodeOpE, fields_regByte]
  | ldVxDt x | ldVxK x | ldDt x | ldSt x | addI x | ldF x | ldB x | ldStore x | ldLoad x =>
    simp [encode, decodeWord, decodeFields, decodeOpF, fields_regByte]

theorem decode_pair_eq_ok {hi lo : Byte} {i : Instr} {rest rest' : List Byte} :
    decode (hi :: lo :: rest) = .ok (i, rest') ↔ decodeWord (wordOfBytes hi lo) = some i ∧ rest = rest' := by
  cases hd : decodeWord (wordOfBytes hi lo) <;> simp [decode, hd]

/-- Settles O1: as a word by the formats, as bytes because the two bytes of a word give it back. -/
theorem decodeOfEncodeIsTheInstruction : Obligations.DecodeOfEncodeIsTheInstruction := by
  intro i hi
  have hd : decodeWord (encode i) = some i := decodeWord_encode hi
  refine ⟨hd, fun rest => decode_pair_eq_ok.2 ⟨?_, rfl⟩⟩
  rw [wordOfBytes_high_low]
  exact hd

/-! ### From a word that decodes to the instruction and back -/

theorem encode_of_decodeOp0 {w : Word} {i : Instr} (ho : (fields w).op.toNat = 0x0)
    (h : decodeOp0 (fields w) = some i) : encode i = w ∧ i.wellFormed = true := by
  unfold decodeOp0 at h
  split at h <;> cases h
  next hn => exact ⟨opAddr_eq_of_fields ho hn, rfl⟩
  next hn => exact ⟨opAddr_eq_of_fields ho hn, rfl⟩

theorem encode_of_decodeOp8 {w : Word} {i : Instr} (ho : (fields w).op.toNat = 0x8)
    (h : decodeOp8 (fields w) = some i) : encode i = w ∧ i.wellFormed = true := by
  unfold decodeOp8 at h
  split at h <;> cases h
  all_goals exact ⟨nibbles_eq_of_fields ho ‹_›, rfl⟩

theorem encode_of_decodeOpE {w : Word} {i : Instr} (ho : (fields w).op.toNat = 0xE)
    (h : decodeOpE (fields w) = some i) : encode i = w ∧ i.wellFormed = true := by
  unfold decodeOpE at h
  split at h <;> cases h
  all_goals exact ⟨regByte_eq_of_fields ho ‹_›, rfl⟩

theorem encode_of_decodeOpF {w : Word} {i : Instr} (ho : (fields w).op.toNat = 0xF)
    (h : decodeOpF (fields w) = some i) : encode i = w ∧ i.wellFormed = true := by
  unfold decodeOpF at h
  split at h <;> cases h
  all_goals exact ⟨regByte_eq_of_fields ho ‹_›, rfl⟩

/-- Every branch of the switch knows the fixed fields of the word and builds from the others. Branch `h_k` is that of
op `k - 1`, and `h_17` is for a number no 4 bits hold. -/
theorem encode_of_decodeWord {w : Word} {i : Instr} (h : decodeWord w = some i) :
    encode i = w ∧ i.wellFormed = true := by
  unfold decodeWord decodeFields at h
  split at h
  case h_1 ho => exact encode_of_decodeOp0 ho h
  case h_9 ho => exact encode_of_decodeOp8 ho h
  case h_15 ho => exact encode_of_decodeOpE ho h
  case h_16 ho => exact encode_of_decodeOpF ho h
  case h_17 => cases h
  case h_2 ho | h_3 ho | h_11 ho | h_12 ho => cases h; exact ⟨opAddr_eq_of_fields ho rfl, rfl⟩
  case h_4 ho | h_5 ho | h_7 ho | h_8 ho | h_13 ho => cases h; exact ⟨regByte_eq_of_fields ho rfl, rfl⟩
  case h_6 ho | h_10 ho =>
    obtain ⟨hn, hi⟩ := Option.ite_none_right_eq_some.1 h
    cases hi
    exact ⟨nibbles_eq_of_fields ho (congrArg BitVec.toNat hn), rfl⟩
  case h_14 ho =>
    cases h
    have hn : (fields w).n.toNat < 16 := (fields w).n.isLt
    exact ⟨nibbles_eq_of_fields ho (Nat.mod_eq_of_lt hn).symm, decide_eq_true hn⟩

/-- Settles O2: no branch of the switch drops a bit of the word. -/
theorem encodeOfDecodedWordIsTheWord : Obligations.EncodeOfDecodedWordIsTheWord :=
  fun _ _ hd => encode_of_decodeWord hd

/-- Settles O5, by running the decoder on the eleven words. -/
theorem writtenWordsDecode : Obligations.WrittenWordsDecode := by
  unfold Obligations.WrittenWordsDecode
  decide

end Sys2Proof
end

section
/-! PROOF. The switch reads a word as the opcode map does (30_encoding.md R84, R85), and the words neither reads are those
of R87. -/

namespace Sys2Proof

/-! ### A row accepts by fields of the word -/

theorem accepts_iff {r : OpcodeRow} {w : Word} : r.accepts w = true ↔ (w &&& r.mask).toNat = r.pattern.toNat := by
  rw [OpcodeRow.accepts, beq_iff_eq, BitVec.toNat_inj]

theorem accepts_F000 {p : Word} (b : Fields → Instr) (w : Word) (hp : p.toNat % 4096 = 0) :
    (OpcodeRow.mk 0xF000 p b).accepts w = true ↔ (fields w).op.toNat = p.toNat / 4096 := by
  refine accepts_iff.trans ?_
  change (w &&& 0xF000#16).toNat = p.toNat ↔ _
  rw [and_F000_toNat, fields_op_toNat]
  omega

theorem accepts_F00F {p : Word} (b : Fields → Instr) (w : Word) (hp : p.toNat / 16 % 256 = 0) :
    (OpcodeRow.mk 0xF00F p b).accepts w = true ↔
      (fields w).op.toNat = p.toNat / 4096 ∧ (fields w).n.toNat = p.toNat % 16 := by
  refine accepts_iff.trans ?_
  change (w &&& 0xF00F#16).toNat = p.toNat ↔ _
  rw [and_F00F_toNat, fields_op_toNat, fields_n_toNat]
  omega

theorem accepts_F0FF {p : Word} (b : Fields → Instr) (w : Word) (hp : p.toNat / 256 % 16 = 0) :
    (OpcodeRow.mk 0xF0FF p b).accepts w = true ↔
      (fields w).op.toNat = p.toNat / 4096 ∧ (fields w).nn.toNat = p.toNat % 256 := by
  refine accepts_iff.trans ?_
  change (w &&& 0xF0FF#16).toNat = p.toNat ↔ _
  rw [and_F0FF_toNat, fields_op_toNat, fields_nn_toNat]
  omega

theorem accepts_FFFF {p : Word} (b : Fields → Instr) (w : Word) :
    (OpcodeRow.mk 0xFFFF p b).accepts w = true ↔
      (fields w).op.toNat = p.toNat / 4096 ∧ (fields w).nnn.toNat = p.toNat % 4096 := by
  refine accepts_iff.trans ?_
  change (w &&& 0xFFFF#16).toNat = p.toNat ↔ _
  rw [and_FFFF, fields_op_toNat, fields_nnn_toNat]
  omega

/-- Row by row: the fields that a row fixes are those the switch selects on to reach its instruction. -/
theorem decodeWord_of_accepts (w : Word) :
    ∀ r ∈ opcodeMap, r.accepts w = true → decodeWord w = some (r.build (fields w)) := by
  simp (disch := decide) only [opcodeMap, opcodeMapLow, opcodeMapHigh, List.cons_append, List.nil_append,
    List.forall_mem_cons, List.not_mem_nil, false_implies, implies_true, and_true,
    accepts_F000, accepts_F00F, accepts_F0FF, accepts_FFFF]
  and_intros
  all_goals intro h
  all_goals simp [decodeWord, decodeFields, decodeOp0, decodeOp8, decodeOpE, decodeOpF, BitVec.toNat_eq, h]

/-! ### Every instruction has its row -/

namespace Laws.FixedBits

theorem encode_has_fixed_bits : ∀ i, Statement i
  | .cls => cls | .ret => ret | .jp a => jp a | .call a => call a | .seImm x b => seImm x b | .sneImm x b => sneImm x b
  | .seReg x y => seReg x y | .ldImm x b => ldImm x b | .addImm x b => addImm x b | .ldReg x y => ldReg x y
  | .orReg x y => orReg x y | .andReg x y => andReg x y | .xorReg x y => xorReg x y | .addReg x y => addReg x y
  | .subReg x y => subReg x y | .shrReg x y => shrReg x y | .subnReg x y => subnReg x y | .shlReg x y => shlReg x y
  | .sneReg x y => sneReg x y | .ldI a => ldI a | .jpV0 a => jpV0 a | .rnd x b => rnd x b | .drw x y n => drw x y n
  | .skp x => skp x | .sknp x => sknp x | .ldVxDt x => ldVxDt x | .ldVxK x => ldVxK x | .ldDt x => ldDt x
  | .ldSt x => ldSt x | .addI x => addI x | .ldF x => ldF x | .ldB x => ldB x | .ldStore x => ldStore x
  | .ldLoad x => ldLoad x

theorem exists_row (i : Instr) : ∃ r ∈ opcodeMap, r.mask = mask i ∧ r.pattern = pattern i := by
  have hmem : (mask i, pattern i) ∈ opcodeMap.map (fun r => (r.mask, r.pattern)) :=
    List.mem_of_elem_eq_true (by cases i <;> rfl)
  obtain ⟨r, hr, he⟩ := List.mem_map.1 hmem
  exact ⟨r, hr, Prod.mk.inj he⟩

end Laws.FixedBits

theorem exists_row_accepts_encode (i : Instr) : ∃ r ∈ opcodeMap, r.accepts (encode i) = true := by
  obtain ⟨r, hr, hm, hp⟩ := Laws.FixedBits.exists_row i
  refine ⟨r, hr, beq_iff_eq.2 ?_⟩
  rw [hm, hp]
  exact Laws.FixedBits.encode_has_fixed_bits i

/-- The row that accepts the word says what the switch does; a word that no row accepts is no encoding, so the switch
reads no instruction from it. -/
theorem decodeWord_eq_lookupWord (w : Word) : decodeWord w = lookupWord w := by
  unfold lookupWord
  cases hf : opcodeMap.find? (fun r => r.accepts w) with
  | some r =>
    have ha : r.accepts w = true := List.find?_some (p := (OpcodeRow.accepts · w)) hf
    exact decodeWord_of_accepts w r (List.mem_of_find?_eq_some hf) ha
  | none =>
    refine Option.eq_none_iff_forall_ne_some.2 fun i hd => ?_
    obtain ⟨rfl, _⟩ := encode_of_decodeWord hd
    obtain ⟨r, hr, ha⟩ := exists_row_accepts_encode i
    exact List.find?_eq_none.1 hf r hr ha

/-! ### No word matches two rows -/

/-- Two rows differ in a bit that both of them fix. -/
abbrev OpcodeRow.Disjoint (r r' : OpcodeRow) : Prop := r.pattern &&& r'.mask ≠ r'.pattern &&& r.mask

theorem OpcodeRow.Disjoint.not_accepts {r r' : OpcodeRow} (h : r.Disjoint r') {w : Word} (hr : r.accepts w = true) :
    ¬ r'.accepts w = true := by
  refine fun hr' => h ?_
  rw [← beq_iff_eq.1 hr, ← beq_iff_eq.1 hr']
  ac_rfl

theorem opcodeMap_disjoint : opcodeMap.Pairwise OpcodeRow.Disjoint := by decide

/-- Of two accepting rows the first would be disjoint from the second. -/
theorem accepting_rows_length_le_one (w : Word) : (opcodeMap.filter (fun r => r.accepts w)).length ≤ 1 := by
  have hd : (opcodeMap.filter (fun r => r.accepts w)).Pairwise OpcodeRow.Disjoint := opcodeMap_disjoint.filter _
  have ha : ∀ r ∈ opcodeMap.filter (fun r => r.accepts w), r.accepts w = true :=
    fun _ hr => List.of_mem_filter (p := (OpcodeRow.accepts · w)) hr
  generalize opcodeMap.filter (fun r => r.accepts w) = rows at hd ha
  match rows with
  | [] | [_] => simp
  | r :: r' :: _ =>
    have hne : r.Disjoint r' := List.rel_of_pairwise_cons hd (by simp)
    exact absurd (ha r' (by simp)) (hne.not_accepts (ha r (by simp)))

/-- Settles O3: the two decoders agree, and the rows are disjoint in pairs. -/
theorem decoderFollowsTheOpcodeMap : Obligations.DecoderFollowsTheOpcodeMap :=
  ⟨rfl, fun w => ⟨decodeWord_eq_lookupWord w, accepting_rows_length_le_one w⟩⟩

/-! ### The words that do not decode (30_encoding.md R87) -/

theorem decodeOp0_eq_none {f : Fields} : decodeOp0 f = none ↔ f.nnn.toNat ≠ 0x0E0 ∧ f.nnn.toNat ≠ 0x0EE := by
  unfold decodeOp0; split <;> simp_all

theorem decodeOp8_eq_none {f : Fields} : decodeOp8 f = none ↔ f.n.toNat ∈ [0x8, 0x9, 0xA, 0xB, 0xC, 0xD, 0xF] := by
  have := f.n.isLt
  unfold decodeOp8; split <;> simp_all; omega

theorem decodeOpE_eq_none {f : Fields} : decodeOpE f = none ↔ f.nn.toNat ≠ 0x9E ∧ f.nn.toNat ≠ 0xA1 := by
  unfold decodeOpE; split <;> simp_all

theorem decodeOpF_eq_none {f : Fields} :
    decodeOpF f = none ↔ f.nn.toNat ∉ [0x07, 0x0A, 0x15, 0x18, 0x1E, 0x29, 0x33, 0x55, 0x65] := by
  unfold decodeOpF; split <;> simp_all

theorem decodeFields_eq_none {f : Fields} : decodeFields f = none ↔
    (f.op.toNat = 0x0 ∧ decodeOp0 f = none) ∨ (f.op.toNat = 0x5 ∧ f.n.toNat ≠ 0) ∨
    (f.op.toNat = 0x8 ∧ decodeOp8 f = none) ∨ (f.op.toNat = 0x9 ∧ f.n.toNat ≠ 0) ∨
    (f.op.toNat = 0xE ∧ decodeOpE f = none) ∨ (f.op.toNat = 0xF ∧ decodeOpF f = none) := by
  have := f.op.isLt
  unfold decodeFields; split <;> simp_all [BitVec.toNat_eq]
  omega

end Sys2Proof

namespace Sys2Proof.Machine

open Sys2Proof

/-- Group by group the list of R87; in group 0 the 12 low bits tell the two whole words apart. -/
theorem decodeWord_eq_none {w : Word} : decodeWord w = none ↔ unknownWord w := by
  have h0 : w.toNat / 4096 = 0 ∧ w.toNat % 4096 ≠ 0x0E0 ∧ w.toNat % 4096 ≠ 0x0EE ↔
      w.toNat / 4096 = 0 ∧ w ≠ 0x00E0 ∧ w ≠ 0x00EE := by
    simp only [ne_eq, ← BitVec.toNat_inj, BitVec.reduceToNat]
    omega
  rw [decodeWord, decodeFields_eq_none, decodeOp0_eq_none, decodeOp8_eq_none, decodeOpE_eq_none, decodeOpF_eq_none,
    fields_op_toNat, fields_n_toNat, fields_nn_toNat, fields_nnn_toNat, h0]
  rfl

end Sys2Proof.Machine
end

section
/-! PROOF. One instruction cycle (30_encoding.md R85): what it runs, the modes it can leave, and INIT, which only a reset
leads back to (R86). -/

namespace Sys2Proof.Machine

open Sys2Proof

/-! ### What the two bytes at PC make the cycle do -/

/-- Settles O4: the list of R87, and the cycle's own fault on a word that does not decode. -/
theorem unknownWordsRaiseUnknownOpcode : Obligations.UnknownWordsRaiseUnknownOpcode := by
  refine ⟨fun w => decodeWord_eq_none, fun s w hc hpc hw hu => ?_⟩
  obtain ⟨w', hf, hw'⟩ := fetchWord_toNat (m := s.mem) hpc
  obtain rfl : w' = w := BitVec.eq_of_toNat_eq (hw'.trans hw.symm)
  rw [performMove_step hc, cycle_of_unknown hf (decodeWord_eq_none.2 hu)]
  rfl

theorem cycle_of_decode_bytes {s : State} {i : Instr} (hpc : s.pc.toNat + 1 < Config.memSize)
    (h : decode [s.mem.read s.pc.toNat, s.mem.read (s.pc.toNat + 1)] = .ok (i, [])) : cycle s = exec i s := by
  obtain ⟨hd, _⟩ := decode_pair_eq_ok.1 h
  exact cycle_of_decode (fetchWord_ok hpc) hd

/-- Settles O6: all three ways of stepping are the cycle, which does not look at the schedule. -/
theorem stepRunsTheDecodedInstruction : Obligations.StepRunsTheDecodedInstruction := by
  intro s i hc hpc hd
  have hcycle : cycle s = exec i s := cycle_of_decode_bytes hpc hd
  refine ⟨(performMove_step hc).trans hcycle, fun hs => (step_of_canStep hs hc).trans hcycle, fun rest hs => ?_⟩
  rw [step_of_move hs, performMove_step (s := { s with schedule := rest }) hc]
  exact cycle_of_decode_bytes (s := { s with schedule := rest }) hpc hd

/-! ### The modes an instruction and a cycle leave -/

/-- The mode of `t` is one that the instruction `i` may leave: `WAITKEY` is for FX0A alone (44_keys_timers.md R236). -/
def LeavesMode (i : Instr) (t : State) : Prop :=
  t.mode = .run ∨ (∃ x, i = .ldVxK x ∧ t.mode = .waitKey x) ∨ t.faulted

theorem orOutOfBounds_leavesMode {α : Type} {i j : Instr} {s : State} {r : Except Nat α} {k : α → State}
    (hk : ∀ a, (k a).mode = .run) : ∃ t, orOutOfBounds i s r k = .next t ∧ LeavesMode j t := by
  obtain ⟨a, _, he⟩ | ⟨a, _, he⟩ := orOutOfBounds_cases i s r k
  · exact ⟨_, he, .inl (hk a)⟩
  · exact ⟨_, he, .inr (.inr ⟨_, rfl⟩)⟩

/-- Every instruction answers a next state from every state. -/
theorem exec_leavesMode (i : Instr) (s : State) : ∃ t, exec i s = .next t ∧ LeavesMode i t := by
  cases i with
  | ret =>
    obtain ⟨_, he⟩ | ⟨_, he⟩ := execRet_cases s
    · exact ⟨_, he, .inl rfl⟩
    · exact ⟨_, he, .inr (.inr ⟨_, rfl⟩)⟩
  | call nnn =>
    obtain ⟨_, he⟩ | ⟨_, he⟩ := execCall_cases nnn s
    · exact ⟨_, he, .inl rfl⟩
    · exact ⟨_, he, .inr (.inr ⟨_, rfl⟩)⟩
  | ldB _ | ldStore _ | drw _ _ _ => exact orOutOfBounds_leavesMode (fun _ => rfl)
  | ldLoad _ => exact orOutOfBounds_leavesMode (fun bs => setRegsFrom_mode s.afterFetch 0 bs)
  | ldVxK x => exact ⟨_, rfl, .inr (.inl ⟨x, rfl, rfl⟩)⟩
  | _ => exact ⟨_, rfl, .inl rfl⟩

theorem cycle_leavesMode (s : State) : ∃ t, cycle s = .next t ∧
    (t.mode = .run ∨
     (∃ x, t.mode = .waitKey x ∧ fetchWord s.mem s.pc.toNat = .ok (encode (.ldVxK x))) ∨ t.faulted) := by
  obtain ⟨a, _, he⟩ | ⟨w, _, _, he⟩ | ⟨w, i, hf, hd, he⟩ := cycle_cases s
  · exact ⟨_, he, .inr (.inr ⟨_, rfl⟩)⟩
  · exact ⟨_, he, .inr (.inr ⟨_, rfl⟩)⟩
  · obtain ⟨t, ht, hrun | ⟨x, rfl, hwait⟩ | hfault⟩ := exec_leavesMode i s
    · exact ⟨t, he.trans ht, .inl hrun⟩
    · obtain ⟨hw, _⟩ := encode_of_decodeWord hd
      exact ⟨t, he.trans ht, .inr (.inl ⟨x, hwait, hw ▸ hf⟩)⟩
    · exact ⟨t, he.trans ht, .inr (.inr hfault)⟩

/-- Settles O10: the cycle's answer, with FX0A's word written out. -/
theorem runningStepAlwaysAnswersNext : Obligations.RunningStepAlwaysAnswersNext := by
  intro s hc
  rw [performMove_step hc]
  obtain ⟨t, ht, hrun | ⟨x, hwait, hf⟩ | hfault⟩ := cycle_leavesMode s
  · exact ⟨t, ht, .inl hrun⟩
  · have hw : (encode (.ldVxK x)).toNat = 0xF * 4096 + x.val * 256 + 0x0A :=
      regByte_toNat (by omega) x.isLt (by omega)
    exact ⟨t, ht, .inr (.inl ⟨x, _, hwait, hf, by omega⟩)⟩
  · exact ⟨t, ht, .inr (.inr hfault)⟩

/-! ### INIT (30_encoding.md R86; 70_reset_and_hazards.md R305) -/

theorem cycle_mode_ne_init {s t : State} (h : cycle s = .next t) : t.mode ≠ .init := by
  intro hi
  obtain ⟨t', ht', hmode⟩ := cycle_leavesMode s
  cases ht'.symm.trans h
  obtain hm | ⟨x, hm, _⟩ | ⟨r, hm⟩ := hmode <;> cases hm.symm.trans hi

theorem enabled_of_performMove {m : HostMove} {s t : State} (h : performMove m s = .next t) :
    enabled s.mode m = true := by
  cases he : enabled s.mode m with
  | true => rfl
  | false => cases (performMove_disabled he).symm.trans h

theorem mode_of_enabled_loader {s : State} {m : HostMove} (hm : (∃ b, m = .loadFont b) ∨ ∃ b, m = .loadRom b)
    (he : enabled s.mode m = true) : s.mode = .init := by
  cases hs : s.mode with
  | init => rfl
  | run | waitKey _ | fault _ => obtain ⟨_, rfl⟩ | ⟨_, rfl⟩ := hm <;> rw [hs] at he <;> cases he

theorem keyDeliver_mode_init {k : Key} {s : State} (h : (keyDeliver k s).mode = .init) : s.mode = .init := by
  unfold keyDeliver at h
  split at h
  · cases h
  all_goals exact h

/-- Settles O11, move by move: a reset enters INIT, a loader needs it, a cycle leaves it, and the others keep the mode
or end a wait. -/
theorem initEndsAtTheFirstStep : Obligations.InitEndsAtTheFirstStep := by
  intro m s t h
  have he := enabled_of_performMove h
  rw [performMove_enabled he] at h
  refine ⟨?_, fun ht hs => ?_, fun hm => mode_of_enabled_loader hm he⟩
  · rintro rfl
    exact cycle_mode_ne_init h
  · cases m with
    | reset => rfl
    | loadFont b => exact absurd (mode_of_enabled_loader (.inl ⟨b, rfl⟩) he) hs
    | loadRom b => exact absurd (mode_of_enabled_loader (.inr ⟨b, rfl⟩) he) hs
    | step => exact absurd ht (cycle_mode_ne_init h)
    | tick | setKeys _ => cases h; exact absurd ht hs
    | keyDeliver k => cases h; exact absurd (keyDeliver_mode_init ht) hs

end Sys2Proof.Machine
end

section
/-! PROOF. The display instructions (40_display.md R110 to R113): what CLS leaves, when a draw completes, and what a draw
that completes leaves. -/

namespace Sys2Proof.Machine

open Sys2Proof

theorem advances_two {s t : State} (hm : t.mode = .run) (hp : t.pc = s.pc + 2) : Advances 2 s t :=
  ⟨hm, by rw [hp, BitVec.toNat_add]; rfl⟩

/-- Settles O38: the frame is the one every instruction keeps. -/
theorem clsClearsEveryPixel : Obligations.ClsClearsEveryPixel := by
  intro s
  have he : exec .cls s = .next { s.afterFetch with disp := clearDisplay } := rfl
  exact ⟨⟨_, he, advances_two rfl rfl, pixel_clearDisplay, fun x y => pixel_clearDisplay x y, exec_unchanged he⟩, rfl⟩

/-! ### The sprite of a draw -/

/-- The bit that DXYN's sprite, drawn from `s`, lays over a pixel. -/
def State.sprite (s : State) (x y : Reg) (n a b : Nat) : Bool :=
  spriteBit s.mem (indexAddr s 0) (originX s x) (originY s y) n a b

/-- Every byte that DXYN reads is in memory: the byte of each row up to the first clipped one (D13). -/
def State.spriteReadable (s : State) (y : Reg) (n : Nat) : Prop :=
  ∀ row, row < n → originY s y + row ≤ Config.height → indexAddr s row < Config.memSize

theorem originY_le_height (s : State) (y : Reg) : originY s y ≤ Config.height :=
  Nat.le_of_lt (Nat.mod_lt _ (by decide))

theorem spriteBit_congr {m m' : Memory} (h : ∀ a, m'.read a = m.read a) (base x0 y0 n a b : Nat) :
    spriteBit m' base x0 y0 n a b = spriteBit m base x0 y0 n a b := by
  simp only [spriteBit, h]

/-- A draw moves neither the sprite's bytes nor I, so the next draw at the same origin has the same sprite. -/
theorem sprite_of_exec_drw {x y : Reg} {n : Nat} {s t : State} (h : exec (.drw x y n) s = .next t)
    (hx : originX t x = originX s x) (hy : originY t y = originY s y) : t.sprite x y n = s.sprite x y n := by
  have hf : Unchanged (· = Reg.vf) [.display] s t := exec_unchanged h
  have hi : t.i = s.i := hf.i (by decide)
  have hm : ∀ a, t.mem.read a = s.mem.read a := hf.memory (by decide)
  funext a b
  simp only [State.sprite, indexAddr, hi, hx, hy, spriteBit_congr hm]

/-! ### What a draw leaves -/

/-- A draw of `s` that completes in `t`: the sprite is XORed into the grid, and VF is 1 when a pixel went from ON to OFF
and 0 when none did (R111). -/
structure Draws (x y : Reg) (n : Nat) (s t : State) : Prop where
  advances : Advances 2 s t
  pixels : ∀ a b, a < 64 → b < 32 → pixel t.disp a b = (pixel s.disp a b ^^ s.sprite x y n a b)
  flag : t.reg Reg.vf =
    if ∃ (a : Fin 64) (b : Fin 32), pixel s.disp a b = true ∧ pixel t.disp a b = false then 1 else 0

theorem exec_drw_of_readable {x y : Reg} {n : Nat} {s : State} (hr : s.spriteReadable y n) :
    ∃ t, exec (.drw x y n) s = .next t ∧ Draws x y n s t := by
  obtain ⟨⟨d, c⟩, he, hpix, hflag⟩ :=
    drawRows_sprite s.mem (indexAddr s 0) (originX s x) (originY s y) n s.disp (originY_le_height s y) hr
  have hcollide : c = true ↔ ∃ (a : Fin 64) (b : Fin 32), pixel s.disp a b = true ∧ pixel d a b = false := by
    rw [hflag]
    constructor
    · rintro ⟨a, b, ha, hb, hbit, hon⟩
      exact ⟨⟨a, ha⟩, ⟨b, hb⟩, hon, by rw [hpix a b ha hb, hon, hbit]; rfl⟩
    · rintro ⟨a, b, hon, hoff⟩
      rw [hpix a b a.isLt b.isLt, hon] at hoff
      exact ⟨a, b, a.isLt, b.isLt, by simpa using hoff, hon⟩
  refine ⟨_, orOutOfBounds_ok he, advances_two rfl rfl, hpix, ?_⟩
  exact (reg_setReg_same s.afterFetch Reg.vf (collisionFlag c)).trans (if_congr hcollide rfl rfl)

theorem exec_drw_of_unreadable {x y : Reg} {n row : Nat} {s : State} (hn : row < n)
    (hy : originY s y + row ≤ Config.height) (ho : Config.memSize ≤ indexAddr s row) :
    Raises (.drw x y n) s .outOfBoundsAccess (some (max (indexAddr s 0) Config.memSize)) :=
  orOutOfBounds_error (drawRows_error s.mem (indexAddr s 0) (originX s x) (originY s y) n 0 (s.disp, false) row
    row.zero_le (by omega) hy ho)

/-- A draw that is not readable raises, so one that completes has drawn. -/
theorem draws_of_exec_drw {x y : Reg} {n : Nat} {s t : State} (h : exec (.drw x y n) s = .next t)
    (hm : t.mode = .run) : Draws x y n s t := by
  by_cases hr : s.spriteReadable y n
  · obtain ⟨t', ht', hd⟩ := exec_drw_of_readable (x := x) hr
    cases ht'.symm.trans h
    exact hd
  · simp only [State.spriteReadable, not_forall, Nat.not_lt] at hr
    obtain ⟨row, hn, hy, ho⟩ := hr
    cases (exec_drw_of_unreadable hn hy ho).symm.trans h
    cases hm

/-- Settles O39: a readable sprite is drawn, and VF's two clauses are the two cases of the flag. -/
theorem drawXorsTheClippedSprite : Obligations.DrawXorsTheClippedSprite := by
  intro x y n s
  refine ⟨fun hr => ?_, fun hn => ?_⟩
  · obtain ⟨t, ht, hd⟩ := exec_drw_of_readable (x := x) hr
    refine ⟨t, ht, hd.advances, hd.pixels, ?_, fun hkept => ?_, exec_unchanged ht⟩
    · rintro ⟨a, b, ha, hb, hon, hoff⟩
      rw [hd.flag, if_pos ⟨⟨a, ha⟩, ⟨b, hb⟩, hon, hoff⟩]
    · rw [hd.flag, if_neg]
      rintro ⟨a, b, hon, hoff⟩
      cases (hkept a b a.isLt b.isLt hon).symm.trans hoff
  · have hw : (encode (.drw x y n)).toNat = 0xD * 4096 + x.val * 256 + y.val * 16 + n % 16 :=
      nibbles_toNat (by decide) x.isLt y.isLt (Nat.mod_lt _ (by decide))
    omega

/-- Settles O40: the rows before the first unreadable byte draw into a buffer that the fault discards. -/
theorem drawFaultsOnAnUnreadableRow : Obligations.DrawFaultsOnAnUnreadableRow :=
  fun _ _ _ _ _ hn hy ho => exec_drw_of_unreadable hn hy ho

/-- Two draws of one sprite cancel. -/
theorem Draws.twice {x y : Reg} {n : Nat} {s t u : State} (hst : Draws x y n s t) (htu : Draws x y n t u)
    (hsprite : t.sprite x y n = s.sprite x y n) : u.disp = s.disp := by
  refine display_ext fun a b => ?_
  by_cases hg : a < 64 ∧ b < 32
  · obtain ⟨ha, hb⟩ := hg
    rw [htu.pixels a b ha hb, hst.pixels a b ha hb, hsprite, Bool.xor_assoc, Bool.xor_self, Bool.xor_false]
  · rw [pixel_outside _ hg, pixel_outside _ hg]

/-- Settles O41: the second draw XORs the same sprite again. On an all-OFF buffer the first draw leaves the sprite itself
ON, so the pixels the second turns OFF are its 1 bits. -/
theorem drawingTwiceRestoresTheBuffer : Obligations.DrawingTwiceRestoresTheBuffer := by
  intro x y n s t u ht hu htm hum hx hy
  have hst := draws_of_exec_drw ht htm
  have htu := draws_of_exec_drw hu hum
  have hdisp : u.disp = s.disp := hst.twice htu (sprite_of_exec_drw ht hx hy)
  refine ⟨hdisp, fun hoff => ?_⟩
  have hbit : ∀ (a : Fin 64) (b : Fin 32),
      pixel t.disp a b = true ∧ pixel u.disp a b = false ↔ s.sprite x y n a b = true := by
    intro a b
    rw [hst.pixels a b a.isLt b.isLt, hdisp, hoff, Bool.false_xor]
    exact and_iff_left rfl
  exact htu.flag.trans (if_congr (exists_congr fun a => exists_congr (hbit a)) rfl rfl)

end Sys2Proof.Machine
end

section
/-! PROOF. Control transfer (41_control_flow.md R130 to R138): the skips, the jumps, and CALL with the RET that matches
it. -/

namespace Sys2Proof.Machine

open Sys2Proof

/-! ### Skips (R133 to R138) -/

/-- An instruction that answers `skipWhen` of a test is a skip on the condition that the test decides. -/
theorem leads_skipsIf {i : Instr} {s : State} {c : Bool} {p : Prop}
    (he : exec i s = .next (s.afterFetch.skipWhen c)) (hc : c = true ↔ p) : Leads i s (SkipsIf p s) := by
  refine ⟨_, he, fun hp => ⟨rfl, ?_⟩, fun hp => advances_two rfl ?_, (Unchanged.afterFetch s).withPcMode _ _⟩
  · rw [skipWhen_pc, if_pos (hc.2 hp), afterFetch_pc, BitVec.add_assoc, BitVec.toNat_add]
    rfl
  · rw [skipWhen_pc, if_neg (mt hc.1 hp), afterFetch_pc]

/-- Settles O25: each skip is `skipWhen` of its test, and each test decides its condition. -/
theorem registerSkipsFollowTheirCondition : Obligations.RegisterSkipsFollowTheirCondition := by
  intro x y nn s
  refine ⟨leads_skipsIf rfl beq_iff_eq, leads_skipsIf rfl bne_iff_ne, leads_skipsIf rfl beq_iff_eq,
    leads_skipsIf rfl bne_iff_ne, ?_, ?_, ?_, ?_⟩
  · exact regByte_toNat (by decide) x.isLt nn.isLt
  · exact regByte_toNat (by decide) x.isLt nn.isLt
  · exact nibbles_toNat (by decide) x.isLt y.isLt (by decide)
  · exact nibbles_toNat (by decide) x.isLt y.isLt (by decide)

/-! ### Jumps (R131, R137) -/

theorem zext16_toNat (nnn : Addr12) : (zext16 nnn).toNat = nnn.toNat :=
  BitVec.toNat_setWidth_of_le (by decide)

theorem targetPlusV0_toNat (s : State) (nnn : Addr12) :
    (targetPlusV0 s nnn).toNat = ((s.reg 0).toNat + nnn.toNat) % 65536 := BitVec.toNat_ofNat _ _

/-- An instruction that answers its fetch's state at another PC is a jump to that PC. -/
theorem leads_goesTo {i : Instr} {s : State} {a : Word} {n : Nat}
    (he : exec i s = .next { s.afterFetch with pc := a }) (ha : a.toNat = n) :
    Leads i s (fun t => GoesTo n s t ∧ Unchanged noReg [] s t) :=
  ⟨_, he, ⟨rfl, ha⟩, (Unchanged.afterFetch s).withPcMode _ _⟩

/-- Settles O26: the targets are `NNN` and the 16-bit sum `V0 + NNN`. -/
theorem jumpsReplacePc : Obligations.JumpsReplacePc := fun nnn s =>
  ⟨leads_goesTo rfl (zext16_toNat nnn), leads_goesTo rfl (targetPlusV0_toNat s nnn),
    opAddr_toNat (by decide) nnn.isLt, opAddr_toNat (by decide) nnn.isLt⟩

/-! ### CALL and RET (R130, R132) -/

/-- CALL stores the address after itself at the old depth. -/
theorem called_entry {s : State} (nnn : Addr12) (h : s.sp.val < 16) {j : Fin 16} (hj : j.val = s.sp.val) :
    ((s.called nnn h).stack[j]).toNat = (s.pc.toNat + 2) % 65536 := by
  have he : (s.called nnn h).stack[j] = s.pc + 2 := by simp [State.called, hj]
  rw [he, BitVec.toNat_add]
  rfl

/-- RET reads the entry just below the depth. -/
theorem returned_pc {s : State} (h : 0 < s.sp.val) {j : Fin 16} (hj : s.sp.val = j.val + 1) :
    (s.returned h).pc = s.stack[j] := by
  simp [State.returned, hj]

/-- Settles O27: below 16 entries CALL answers `called`, whose frame is the one every instruction keeps; at 16 it
faults. -/
theorem callPushesTheReturnAddress : Obligations.CallPushesTheReturnAddress := by
  intro nnn s
  refine ⟨fun hl => ?_, exec_call_of_full nnn, opAddr_toNat (by decide) nnn.isLt⟩
  have he : exec (.call nnn) s = .next (s.called nnn hl) := exec_call_of_lt nnn hl
  exact ⟨_, he, ⟨rfl, zext16_toNat nnn⟩, rfl, fun _ hj => called_entry nnn hl hj,
    fun _ hj => exec_call_keeps_entry he hj, exec_unchanged he⟩

/-- Settles O28: above an empty stack RET answers `returned`, whose frame is the one every instruction keeps; on an
empty stack it faults. -/
theorem returnPopsTheTopEntry : Obligations.ReturnPopsTheTopEntry := by
  intro s
  refine ⟨fun j hj => ?_, exec_ret_of_empty, rfl⟩
  have hp : 0 < s.sp.val := by omega
  have he : exec .ret s = .next (s.returned hp) := exec_ret_of_pos hp
  have hsp : s.sp.val - 1 = j.val := by omega
  exact ⟨_, he, ⟨rfl, congrArg BitVec.toNat (returned_pc hp hj)⟩, hsp, exec_ret_keeps_stack he, exec_unchanged he⟩

/-- Settles O29: the entry RET pops is the one just below the depth the CALL left, so it is no stale one and still holds
what the CALL stored there. -/
theorem returnResumesAfterTheCall : Obligations.ReturnResumesAfterTheCall := by
  intro nnn s t u hl ht hsp hstack
  cases (exec_call_of_lt nnn hl).symm.trans ht
  let j : Fin 16 := ⟨s.sp.val, hl⟩
  have hj : u.sp.val = j.val + 1 := congrArg Fin.val hsp
  obtain ⟨hpop, _, _⟩ := returnPopsTheTopEntry u
  obtain ⟨v, hv, ⟨hrun, hpc⟩, hvsp, _, _⟩ := hpop j hj
  have hentry : (u.stack[j]).toNat = (s.pc.toNat + 2) % 65536 := by
    rw [hstack j (Nat.lt_succ_self _)]
    exact called_entry nnn hl rfl
  exact ⟨v, hv, ⟨hrun, hpc.trans hentry⟩, Fin.ext hvsp⟩

end Sys2Proof.Machine
end

section
/-! PROOF. The register and ALU instructions (42_alu.md R160 to R173). A meaning writes `V[X]` alone, or a result and
then the flag, or the flag and then a shift: what each shape leaves, X = F included, is said once, and the values are
facts about bytes. -/

namespace Sys2Proof.Machine

open Sys2Proof

theorem Leads.imp {i : Instr} {s : State} {P Q : State → Prop} (h : Leads i s P) (hpq : ∀ t, P t → Q t) :
    Leads i s Q := by
  obtain ⟨t, ht, hp⟩ := h
  exact ⟨t, ht, hpq t hp⟩

/-- The word of an 8XYN. -/
theorem aluWord_toNat (x y : Reg) {n : Nat} (hn : n < 16) :
    (nibbles 0x8 x.val y.val n).toNat = 0x8000 + n + x.val * 256 + y.val * 16 := by
  rw [nibbles_toNat (by decide) x.isLt y.isLt hn]
  omega

/-! ### The values (R161, R166 to R170) -/

theorem wrapAdd_toNat (a b : Byte) : (wrapAdd a b).toNat = (a.toNat + b.toNat) % 256 := BitVec.toNat_ofNat _ _

theorem wrapSub_toNat (a b : Byte) : (wrapSub a b).toNat = (a.toNat + 256 - b.toNat) % 256 := BitVec.toNat_ofNat _ _

theorem wrapSub_self (a : Byte) : wrapSub a a = 0 := by
  apply BitVec.eq_of_toNat_eq
  rw [wrapSub_toNat, Nat.add_sub_cancel_left]
  rfl

theorem flagByte_decide (p : Prop) [Decidable p] : flagByte (decide p) = if p then 1 else 0 :=
  if_congr decide_eq_true_iff rfl rfl

theorem carryFlag_eq (a b : Byte) : carryFlag a b = if a.toNat + b.toNat > 255 then 1 else 0 := flagByte_decide _

theorem noBorrowFlag_eq (a b : Byte) : noBorrowFlag a b = if a.toNat > b.toNat then 1 else 0 := flagByte_decide _

theorem noBorrowFlag_self (a : Byte) : noBorrowFlag a a = 0 := by
  rw [noBorrowFlag_eq, if_neg (Nat.lt_irrefl _)]

theorem carryFlag_self (a : Byte) : carryFlag a a = if a.toNat ≥ 0x80 then 1 else 0 := by
  rw [carryFlag_eq]
  exact if_congr (by omega) rfl rfl

/-- The carry of a doubling is the top bit. -/
theorem carryFlag_self_toNat (a : Byte) : (carryFlag a a).toNat = a.toNat / 128 := by
  have ha := a.isLt
  rw [carryFlag_self]
  split
  · change 1 = _; omega
  · change 0 = _; omega

theorem and_one_toNat (a : Byte) : (a &&& 1).toNat = a.toNat % 2 := by
  rw [BitVec.toNat_and]
  exact Nat.and_one_is_mod _

theorem shiftRight_one_toNat (a : Byte) : (a >>> 1).toNat = a.toNat / 2 := by
  rw [BitVec.toNat_ushiftRight, Nat.shiftRight_eq_div_pow]

theorem shiftLeft_one_toNat (a : Byte) : (a <<< 1).toNat = a.toNat * 2 % 256 := by
  rw [BitVec.toNat_shiftLeft, Nat.shiftLeft_eq]

theorem shiftedOutRight_toNat (a : Byte) : (shiftedOutRight a).toNat = a.toNat % 2 := and_one_toNat a

theorem shiftedOutLeft_toNat (a : Byte) : (shiftedOutLeft a).toNat = a.toNat / 128 := by
  have ha := a.isLt
  rw [shiftedOutLeft, and_one_toNat, BitVec.toNat_ushiftRight, Nat.shiftRight_eq_div_pow]
  omega

/-- 8FY6 shifts the flag itself, a single bit, out of VF (D10). -/
theorem shiftedOutRight_shiftRight (a : Byte) : shiftedOutRight a >>> 1 = 0 := by
  apply BitVec.eq_of_toNat_eq
  rw [shiftRight_one_toNat, shiftedOutRight_toNat]
  change _ = 0
  omega

/-- 8FYE shifts the flag itself, a single bit, up by one (D10). -/
theorem shiftedOutLeft_shiftLeft (a : Byte) : shiftedOutLeft a <<< 1 = if a.toNat ≥ 0x80 then 2 else 0 := by
  have ha := a.isLt
  apply BitVec.eq_of_toNat_eq
  rw [shiftLeft_one_toNat, shiftedOutLeft_toNat]
  split
  · change _ = 2; omega
  · change _ = 0; omega

/-! ### A write of `V[X]` alone -/

theorem leads_writesOnly {i : Instr} {s : State} {x : Reg} {b : Byte}
    (he : exec i s = .next (s.afterFetch.setReg x b)) : Leads i s (WritesOnly x b s) :=
  ⟨_, he, advances_two rfl rfl, reg_setReg_same _ x b, (Unchanged.afterFetch s).setReg (w := (· = x)) rfl b⟩

/-- Settles O13: the five meanings are one write each. -/
theorem movesAndLogicWriteOnlyVx : Obligations.MovesAndLogicWriteOnlyVx := fun x y nn _ =>
  ⟨leads_writesOnly rfl, leads_writesOnly rfl, leads_writesOnly rfl, leads_writesOnly rfl, leads_writesOnly rfl,
    regByte_toNat (by decide) x.isLt nn.isLt, aluWord_toNat x y (by decide), aluWord_toNat x y (by decide),
    aluWord_toNat x y (by decide), aluWord_toNat x y (by decide)⟩

/-- Settles O14: one write, of the sum modulo 256. -/
theorem addImmediateWrapsWithoutCarry : Obligations.AddImmediateWrapsWithoutCarry := by
  intro x nn s
  have hw : Leads (.addImm x nn) s (WritesOnly x (wrapAdd (s.reg x) nn) s) := leads_writesOnly rfl
  refine ⟨hw.imp fun t ⟨hadv, hx, hframe⟩ => ⟨hadv, ?_, hframe⟩, regByte_toNat (by decide) x.isLt nn.isLt⟩
  rw [hx, wrapAdd_toNat]

/-- Settles O19: the write of a masked draw, with the count of draws moved on. A 0 bit of the mask is a 0 bit of the
result whatever the draw is. -/
theorem randomByteIsMasked : Obligations.RandomByteIsMasked := by
  intro x nn s
  have he : exec (.rnd x nn) s =
      .next { s.afterFetch.setReg x (Config.randomByte s.draws &&& nn) with draws := s.draws + 1 } := rfl
  have hx := reg_setReg_same s.afterFetch x (Config.randomByte s.draws &&& nn)
  refine ⟨⟨_, he, advances_two rfl rfl, hx, fun hn => ?_, fun k hk => ?_, rfl, exec_unchanged he⟩,
    regByte_toNat (by decide) x.isLt nn.isLt⟩
  · subst hn
    exact hx.trans BitVec.and_zero
  · exact (congrArg (·.getLsbD k) hx).trans (by rw [BitVec.getLsbD_and, hk, Bool.and_false])

/-! ### A result, then the flag (8XY4, 8XY5, 8XY7) -/

/-- `V[x]` gets `b` and then VF gets `f`, so `f` is VF for `x = F` too. -/
structure WritesThenFlag (x : Reg) (b f : Byte) (s t : State) : Prop where
  advances : Advances 2 s t
  result : x ≠ Reg.vf → t.reg x = b
  flag : t.reg Reg.vf = f
  frame : Unchanged (fun r => r = x ∨ r = Reg.vf) [] s t

theorem leads_writesThenFlag {i : Instr} {s : State} {x : Reg} {b f : Byte}
    (he : exec i s = .next ((s.afterFetch.setReg x b).setReg Reg.vf f)) : Leads i s (WritesThenFlag x b f s) := by
  refine ⟨_, he, advances_two rfl rfl, fun hx => ?_, reg_setReg_same _ _ f,
    ((Unchanged.afterFetch s).setReg (.inl rfl) b).setReg (.inr rfl) f⟩
  rw [reg_setReg_other _ f hx, reg_setReg_same]

theorem leads_addReg (x y : Reg) (s : State) : Leads (.addReg x y) s
    (WritesThenFlag x (wrapAdd (s.reg x) (s.reg y)) (carryFlag (s.reg x) (s.reg y)) s) := leads_writesThenFlag rfl

theorem leads_subReg (x y : Reg) (s : State) : Leads (.subReg x y) s
    (WritesThenFlag x (wrapSub (s.reg x) (s.reg y)) (noBorrowFlag (s.reg x) (s.reg y)) s) := leads_writesThenFlag rfl

theorem leads_subnReg (x y : Reg) (s : State) : Leads (.subnReg x y) s
    (WritesThenFlag x (wrapSub (s.reg y) (s.reg x)) (noBorrowFlag (s.reg y) (s.reg x)) s) := leads_writesThenFlag rfl

theorem WritesThenFlag.sum_toNat {x : Reg} {a b f : Byte} {s t : State} (h : WritesThenFlag x (wrapAdd a b) f s t)
    (hx : x ≠ Reg.vf) : (t.reg x).toNat = (a.toNat + b.toNat) % 256 := by
  rw [h.result hx, wrapAdd_toNat]

theorem WritesThenFlag.difference_toNat {x : Reg} {a b f : Byte} {s t : State}
    (h : WritesThenFlag x (wrapSub a b) f s t) (hx : x ≠ Reg.vf) :
    (t.reg x).toNat = (a.toNat + 256 - b.toNat) % 256 := by
  rw [h.result hx, wrapSub_toNat]

/-- Settles O15: the sum, then its carry. -/
theorem addSetsCarryLast : Obligations.AddSetsCarryLast := fun x y s =>
  ⟨(leads_addReg x y s).imp fun _ h => ⟨h.advances, h.sum_toNat, h.flag.trans (carryFlag_eq _ _), h.frame⟩,
    aluWord_toNat x y (by decide)⟩

/-- Settles O16: the difference, then its flag; 8XY7 takes it of the operands in the other order. -/
theorem subtractSetsNoBorrowLast : Obligations.SubtractSetsNoBorrowLast := fun x y s =>
  ⟨(leads_subReg x y s).imp fun _ h => ⟨h.advances, h.difference_toNat,
      h.flag.trans (noBorrowFlag_eq _ _), h.frame⟩,
    (leads_subnReg x y s).imp fun _ h => ⟨h.advances, h.difference_toNat,
      h.flag.trans (noBorrowFlag_eq _ _), h.frame⟩,
    aluWord_toNat x y (by decide), aluWord_toNat x y (by decide)⟩

/-! ### The flag, then a shift (8XY6, 8XYE) -/

/-- VF gets `f` and then `V[x]` gets `g` of itself, so for `x = F` the second write works on `f`. -/
structure FlagThenWrites (x : Reg) (f : Byte) (g : Byte → Byte) (s t : State) : Prop where
  advances : Advances 2 s t
  other : x ≠ Reg.vf → t.reg x = g (s.reg x) ∧ t.reg Reg.vf = f
  same : x = Reg.vf → t.reg Reg.vf = g f
  frame : Unchanged (fun r => r = x ∨ r = Reg.vf) [] s t

theorem leads_flagThenWrites {i : Instr} {s : State} {x : Reg} {f : Byte} {g : Byte → Byte}
    (he : exec i s =
      .next ((s.afterFetch.setReg Reg.vf f).setReg x (g ((s.afterFetch.setReg Reg.vf f).reg x)))) :
    Leads i s (FlagThenWrites x f g s) := by
  refine ⟨_, he, advances_two rfl rfl, fun hx => ⟨?_, ?_⟩, ?_,
    ((Unchanged.afterFetch s).setReg (.inr rfl) f).setReg (.inl rfl) _⟩
  · rw [reg_setReg_same, reg_setReg_other _ f hx, reg_afterFetch]
  · rw [reg_setReg_other _ _ hx.symm, reg_setReg_same]
  · rintro rfl
    rw [reg_setReg_same, reg_setReg_same]

theorem leads_shrReg (x y : Reg) (s : State) : Leads (.shrReg x y) s
    (FlagThenWrites x (shiftedOutRight (s.reg x)) (· >>> 1) s) := leads_flagThenWrites rfl

theorem leads_shlReg (x y : Reg) (s : State) : Leads (.shlReg x y) s
    (FlagThenWrites x (shiftedOutLeft (s.reg x)) (· <<< 1) s) := leads_flagThenWrites rfl

/-- Settles O17: for X other than F the flag and the shift are of the old `V[X]`; for X = F the shift is of the flag. -/
theorem shiftsFollowTheStatementOrder : Obligations.ShiftsFollowTheStatementOrder := by
  intro x y s
  refine ⟨(leads_shrReg x y s).imp fun t h => ⟨h.advances, fun hx => ?_, fun hx => ?_, h.frame⟩,
    (leads_shlReg x y s).imp fun t h => ⟨h.advances, fun hx => ?_, fun hx => ?_, h.frame⟩,
    aluWord_toNat x y (by decide), aluWord_toNat x y (by decide)⟩
  · obtain ⟨hr, hf⟩ := h.other hx
    rw [hr, hf]
    exact ⟨shiftRight_one_toNat _, shiftedOutRight_toNat _⟩
  · exact (h.same hx).trans (shiftedOutRight_shiftRight _)
  · obtain ⟨hr, hf⟩ := h.other hx
    rw [hr, hf]
    exact ⟨shiftLeft_one_toNat _, shiftedOutLeft_toNat _⟩
  · exact (h.same hx).trans (shiftedOutLeft_shiftLeft _)

/-! ### The aliasing table (R173) -/

/-- Settles O18, in the order of its rows: X = F, X = Y, both, the shifts of VF, and Y = F. -/
theorem registerAliasingTable : Obligations.RegisterAliasingTable := by
  intro x y s
  refine ⟨fun _ => ⟨?_, ?_, ?_⟩, fun hx => ⟨?_, ?_, ?_⟩, ?_, ?_, ?_, ?_, ?_, fun hx => ⟨?_, ?_, ?_⟩⟩
  · exact (leads_addReg _ y s).imp fun _ h => h.flag.trans (carryFlag_eq _ _)
  · exact (leads_subReg _ y s).imp fun _ h => h.flag.trans (noBorrowFlag_eq _ _)
  · exact (leads_subnReg _ y s).imp fun _ h => h.flag.trans (noBorrowFlag_eq _ _)
  · refine (leads_addReg x x s).imp fun _ h => ⟨?_, ?_⟩
    · rw [h.sum_toNat hx, Nat.two_mul]
    · rw [h.flag, carryFlag_self_toNat]
  · exact (leads_subReg x x s).imp fun _ h => ⟨(h.result hx).trans (wrapSub_self _),
      h.flag.trans (noBorrowFlag_self _)⟩
  · exact (leads_subnReg x x s).imp fun _ h => ⟨(h.result hx).trans (wrapSub_self _),
      h.flag.trans (noBorrowFlag_self _)⟩
  · exact (leads_addReg _ _ s).imp fun _ h => h.flag.trans (carryFlag_self _)
  · exact (leads_subReg _ _ s).imp fun _ h => h.flag.trans (noBorrowFlag_self _)
  · exact (leads_subnReg _ _ s).imp fun _ h => h.flag.trans (noBorrowFlag_self _)
  · exact (leads_shrReg _ y s).imp fun _ h => (h.same rfl).trans (shiftedOutRight_shiftRight _)
  · exact (leads_shlReg _ y s).imp fun _ h => (h.same rfl).trans (shiftedOutLeft_shiftLeft _)
  · exact (leads_addReg x _ s).imp fun _ h => ⟨h.sum_toNat hx, h.flag.trans (carryFlag_eq _ _)⟩
  · exact (leads_subReg x _ s).imp fun _ h => ⟨h.difference_toNat hx, h.flag.trans (noBorrowFlag_eq _ _)⟩
  · exact (leads_subnReg x _ s).imp fun _ h => ⟨h.difference_toNat hx, h.flag.trans (noBorrowFlag_eq _ _)⟩

end Sys2Proof.Machine
end

section
/-! PROOF. The index register and memory instructions (43_index_memory.md R200 to R206): the writes of I, and the three
block accesses, each of which completes when its last address is in memory and raises when it is not. -/

namespace Sys2Proof.Machine

open Sys2Proof

/-- The word of an FXNN. -/
theorem indexWord_toNat (x : Reg) {nn : Nat} (hn : nn < 256) :
    (regByte 0xF x.val nn).toNat = 0xF000 + nn + x.val * 256 := by
  rw [regByte_toNat (by decide) x.isLt hn]
  omega

/-! ### The writes of I (R200 to R202) -/

/-- Five times a byte is below 65536, so the glyph's address is exact. -/
theorem glyphAddr_toNat (v : Byte) : (glyphAddr v).toNat = 5 * v.toNat := by
  have hv := v.isLt
  exact (BitVec.toNat_ofNat _ _).trans (Nat.mod_eq_of_lt (by simp only [Config.glyphBytes]; omega))

/-- An instruction that answers its fetch's state with another I writes I alone. -/
theorem leads_writesIndex {i : Instr} {s : State} {a : Word} {n : Nat}
    (he : exec i s = .next { s.afterFetch with i := a }) (ha : a.toNat = n) :
    Leads i s (fun t => Advances 2 s t ∧ t.i.toNat = n ∧ Unchanged noReg [.i] s t) :=
  ⟨_, he, advances_two rfl rfl, ha, (Unchanged.afterFetch s).withI (.head _) a⟩

/-- Settles O20: the three values of I are `NNN`, the 16-bit sum, and the glyph's address. -/
theorem indexRegisterWrites : Obligations.IndexRegisterWrites := fun x nnn _ =>
  ⟨leads_writesIndex rfl (zext16_toNat nnn), leads_writesIndex rfl (BitVec.toNat_ofNat _ _),
    leads_writesIndex rfl (glyphAddr_toNat _), opAddr_toNat (by decide) nnn.isLt, indexWord_toNat x (by decide),
    indexWord_toNat x (by decide)⟩

/-! ### Blocks of bytes from I up (R206) -/

/-- The last address of a block of `n + 1` bytes is in memory: all of it is. -/
theorem indexAddr_block_le {s : State} {n : Nat} (h : indexAddr s n < 4096) :
    indexAddr s 0 + (n + 1) ≤ Config.memSize := h

/-- The last address of a block of `n + 1` bytes is outside memory: the block passes its end. -/
theorem lt_indexAddr_block {s : State} {n : Nat} (h : 4096 ≤ indexAddr s n) :
    Config.memSize < indexAddr s 0 + (n + 1) := Nat.lt_succ_of_le h

/-- The byte at `I + k` after bytes are written from `I` up. -/
theorem read_writeBytes_indexAddr (m : Memory) (s : State) {bs : List Byte} {k : Nat} {b : Byte}
    (hb : bs[k]? = some b) : (m.writeBytes (indexAddr s 0) bs).read (indexAddr s k) = b := by
  have hoff : indexAddr s k - indexAddr s 0 = k := Nat.add_sub_cancel_left ..
  have hle : indexAddr s 0 ≤ indexAddr s k := Nat.add_le_add_left k.zero_le _
  rw [Memory.read_writeBytes, if_pos hle, hoff, hb]
  rfl

/-! ### FX33 (R203) -/

/-- A digit is below 256, so its byte holds it as it stands. -/
theorem read_writeBytes_digit (m : Memory) (s : State) {bs : List Byte} {k d : Nat}
    (hb : bs[k]? = some (BitVec.ofNat 8 d)) (hd : d < 256) :
    ((m.writeBytes (indexAddr s 0) bs).read (indexAddr s k)).toNat = d := by
  rw [read_writeBytes_indexAddr m s hb, BitVec.toNat_ofNat, Nat.mod_eq_of_lt hd]

theorem exec_ldB_of_lt {x : Reg} {s : State} (h : indexAddr s 2 < 4096) :
    exec (.ldB x) s =
      .next { s.afterFetch with mem := s.mem.writeBytes (indexAddr s 0) (decimalDigits (s.reg x)) } :=
  orOutOfBounds_ok (memWriteSeq_ok _ _ _ (indexAddr_block_le h))

theorem exec_ldB_of_ge {x : Reg} {s : State} (h : 4096 ≤ indexAddr s 2) :
    Raises (.ldB x) s .outOfBoundsAccess (some (max (indexAddr s 0) 4096)) :=
  orOutOfBounds_error (memWriteSeq_error _ _ _ (List.cons_ne_nil _ _) (lt_indexAddr_block h))

/-- Settles O21: in range the block is the three digits, and the frame is the one every instruction keeps. -/
theorem bcdStoresThreeDigits : Obligations.BcdStoresThreeDigits := by
  intro x s
  refine ⟨fun hin => ?_, exec_ldB_of_ge, indexWord_toNat x (by decide)⟩
  have he := exec_ldB_of_lt (x := x) hin
  have hv := (s.reg x).isLt
  refine ⟨_, he, advances_two rfl rfl, ?_, ?_, ?_, fun a ha => exec_ldB_keeps_memory he ha, exec_unchanged he⟩
  · exact read_writeBytes_digit s.mem s rfl (by omega)
  · exact read_writeBytes_digit s.mem s rfl (by omega)
  · exact read_writeBytes_digit s.mem s rfl (by omega)

/-! ### FX55 (R204) -/

theorem exec_ldStore_of_ge {x : Reg} {s : State} (h : 4096 ≤ indexAddr s x) :
    Raises (.ldStore x) s .outOfBoundsAccess (some (max (indexAddr s 0) 4096)) := by
  have hl := regsThrough_length s x
  have hne : regsThrough s x ≠ [] := List.ne_nil_of_length_eq_add_one hl
  exact orOutOfBounds_error (memWriteSeq_error _ _ _ hne (hl ▸ lt_indexAddr_block h))

/-- Settles O22: in range the block is V0 to VX, and the frame is the one every instruction keeps. -/
theorem blockStoreWritesV0ToVx : Obligations.BlockStoreWritesV0ToVx := by
  intro x s
  refine ⟨fun hin => ?_, exec_ldStore_of_ge, indexWord_toNat x (by decide)⟩
  have he := exec_ldStore_of_lt (x := x) hin
  exact ⟨_, he, advances_two rfl rfl, fun _ hk => read_writeBytes_regsThrough s.mem s hk,
    fun a ha => exec_ldStore_keeps_memory he ha, exec_unchanged he⟩

/-! ### FX65 (R205) -/

/-- The `n` bytes of memory from `I` up. -/
def bytesFromI (s : State) (n : Nat) : List Byte := (List.range n).map fun k => s.mem.read (indexAddr s 0 + k)

theorem bytesFromI_getElem? (s : State) {n k : Nat} (h : k < n) :
    (bytesFromI s n)[k]? = some (s.mem.read (indexAddr s k)) := by
  rw [bytesFromI, List.getElem?_map, List.getElem?_range h]
  rfl

theorem exec_ldLoad_of_lt {x : Reg} {s : State} (h : indexAddr s x < 4096) :
    exec (.ldLoad x) s = .next (s.afterFetch.setRegsFrom 0 (bytesFromI s (x.val + 1))) :=
  orOutOfBounds_ok (memReadSeq_ok _ _ _ (indexAddr_block_le h))

theorem exec_ldLoad_of_ge {x : Reg} {s : State} (h : 4096 ≤ indexAddr s x) :
    Raises (.ldLoad x) s .outOfBoundsAccess (some (max (indexAddr s 0) 4096)) :=
  orOutOfBounds_error (memReadSeq_error _ _ _ x.val.succ_pos (lt_indexAddr_block h))

/-- The register `V[k]` after the bytes from `I` up are loaded into V0 to VX. -/
theorem reg_setRegsFrom_bytesFromI (s t : State) {x k : Reg} (h : k ≤ x) :
    (t.setRegsFrom 0 (bytesFromI s (x.val + 1))).reg k = s.mem.read (indexAddr s k) := by
  rw [reg_setRegsFrom, if_pos k.val.zero_le, Nat.sub_zero, bytesFromI_getElem? s (Nat.lt_succ_of_le (Fin.le_def.1 h))]
  rfl

/-- Settles O23: in range the loaded bytes are those from I up, and the frame is the one every instruction keeps. -/
theorem blockLoadReadsV0ToVx : Obligations.BlockLoadReadsV0ToVx := by
  intro x s
  refine ⟨fun hin => ?_, exec_ldLoad_of_ge, indexWord_toNat x (by decide)⟩
  have he := exec_ldLoad_of_lt (x := x) hin
  exact ⟨_, he, advances_two (setRegsFrom_mode ..) (setRegsFrom_pc ..), fun _ hk => reg_setRegsFrom_bytesFromI s _ hk,
    exec_unchanged he⟩

end Sys2Proof.Machine
end

section
/-! PROOF. Keypad and timers (44_keys_timers.md R230 to R237): the key skips, the timer moves, and the wait of an FX0A
from its beginning to the delivery that ends it. -/

namespace Sys2Proof.Machine

open Sys2Proof

/-! ### The key skips (R230 to R232) -/

/-- The word of an EXNN. -/
theorem keyWord_toNat (x : Reg) {nn : Nat} (hn : nn < 256) :
    (regByte 0xE x.val nn).toNat = 0xE000 + nn + x.val * 256 := by
  rw [regByte_toNat (by decide) x.isLt hn]
  omega

/-- The flag listed for key `V[X] mod 16` is the one the skips test. -/
theorem keyDown_getElem?_tested (s : State) (x : Reg) :
    s.keyDown.toList[(s.reg x).toNat % 16]? = some (keyIsDown s x) := by
  have hlt : (s.reg x).toNat % 16 < s.keyDown.toList.length := by
    rw [Vector.length_toList]
    exact Nat.mod_lt _ (by decide)
  rw [List.getElem?_eq_getElem hlt, Vector.getElem_toList]
  rfl

theorem keyDown_getElem?_tested_iff (s : State) (x : Reg) (c : Bool) :
    s.keyDown.toList[(s.reg x).toNat % 16]? = some c ↔ keyIsDown s x = c := by
  rw [keyDown_getElem?_tested, Option.some_inj]

/-- Settles O30: both skips test one flag, EXA1 for being up. -/
theorem keySkipsTestTheLowNibble : Obligations.KeySkipsTestTheLowNibble := by
  intro x s
  refine ⟨leads_skipsIf rfl (keyDown_getElem?_tested_iff s x true).symm, leads_skipsIf rfl ?_,
    keyWord_toNat x (by decide), keyWord_toNat x (by decide)⟩
  rw [Bool.not_eq_true', keyDown_getElem?_tested_iff]

/-! ### The timer moves (R233 to R235) -/

/-- Settles O31: FX07 is a write of `V[X]` alone, FX15 and FX18 are a write of one timer. -/
theorem timerInstructionsMoveOneByte : Obligations.TimerInstructionsMoveOneByte := by
  intro x s
  have hdt : exec (.ldDt x) s = .next { s.afterFetch with dt := s.reg x } := rfl
  have hst : exec (.ldSt x) s = .next { s.afterFetch with st := s.reg x } := rfl
  exact ⟨leads_writesOnly rfl,
    ⟨_, hdt, advances_two rfl rfl, rfl, exec_unchanged hdt⟩,
    ⟨_, hst, advances_two rfl rfl, rfl, rfl, exec_unchanged hst⟩,
    indexWord_toNat x (by decide), indexWord_toNat x (by decide), indexWord_toNat x (by decide)⟩

/-! ### The wait (R236) -/

theorem performMove_tick_of_waitKey {s : State} {x : Reg} (h : s.mode = .waitKey x) :
    performMove .tick s = .next (tick s) :=
  performMove_enabled (by rw [h]; rfl)

/-- A move that the mode does not enable leads to no next state (10_state.md R31). -/
theorem performMove_ne_next {m : HostMove} {s : State} (h : enabled s.mode m = false) (t : State) :
    performMove m s ≠ .next t := by
  rw [performMove_disabled h]
  nofun

/-- Settles O32: the fetch's state with the mode `WAITKEY(X)`, in which `tick` is enabled and `step` is not. -/
theorem keyInstructionEntersTheWait : Obligations.KeyInstructionEntersTheWait := by
  intro x s
  have he : exec (.ldVxK x) s = .next { s.afterFetch with mode := .waitKey x } := rfl
  refine ⟨⟨_, he, rfl, BitVec.toNat_add _ _, exec_unchanged he⟩, fun t ht => ?_, indexWord_toNat x (by decide)⟩
  have hmode : t.mode = .waitKey x := by cases he.symm.trans ht; rfl
  exact ⟨performMove_tick_of_waitKey hmode, performMove_ne_next (by rw [hmode]; rfl)⟩

/-- Settles O33, by induction on the number of steps: each of them answers the state itself. -/
theorem waitWithoutAKeyNeverEnds : Obligations.WaitWithoutAKeyNeverEnds := by
  intro x s n hmode hsched
  induction n with
  | zero => exact core_run_zero s
  | succ n ih => exact (core_run_next (step_of_waitKey hsched hmode)).trans ih

/-! ### The delivery (R237) -/

theorem keyDeliver_of_waitKey {s : State} {x : Reg} (k : Key) (h : s.mode = .waitKey x) :
    keyDeliver k s = { s.setReg x (BitVec.ofNat 8 k.val) with mode := .run } := by
  simp only [keyDeliver, h]

/-- A delivery is enabled in `WAITKEY` only (10_state.md R31). -/
theorem enabled_keyDeliver_eq_false {m : Mode} (k : Key) (h : ∀ x, m ≠ .waitKey x) :
    enabled m (.keyDeliver k) = false := by
  cases m with
  | waitKey x => exact absurd rfl (h x)
  | init | run | fault _ => rfl

/-- Settles O34: in `WAITKEY(x)` one write of `V[x]` and the mode `RUN`; elsewhere the move is refused. -/
theorem keyDeliveryEndsTheWait : Obligations.KeyDeliveryEndsTheWait := by
  intro k s
  refine ⟨fun x hmode => ?_, fun h => performMove_ne_next (enabled_keyDeliver_eq_false k h)⟩
  have hmove : performMove (.keyDeliver k) s = .next (keyDeliver k s) := performMove_enabled (by rw [hmode]; rfl)
  rw [keyDeliver_of_waitKey k hmode] at hmove
  refine ⟨_, hmove, rfl, rfl, ?_, ((Unchanged.refl s).setReg (w := (· = x)) rfl _).withPcMode _ _⟩
  calc ((s.setReg x (BitVec.ofNat 8 k.val)).reg x).toNat
      = (BitVec.ofNat 8 k.val).toNat := congrArg _ (reg_setReg_same s x _)
    _ = k.val % 256 := BitVec.toNat_ofNat _ _
    _ = k.val := Nat.mod_eq_of_lt (k.isLt.trans (by decide))

end Sys2Proof.Machine
end

section
/-! PROOF. Exceptions and the modes (60_exceptions.md): what a step that raises leaves and records, FAULT, which only a
reset leaves, the ways into and out of WAITKEY, and the tick of the timers. -/

namespace Sys2Proof.Machine

open Sys2Proof

/-! ### A step that raises (R260 to R262) -/

/-- `t` is what a fault with the recorded word `word` leaves of `s`. -/
def RaisedFrom (s : State) (word : Option Word) (t : State) : Prop := ∃ kind addr, t = raise kind word addr s

theorem not_faulted_of_run {s : State} (h : s.mode = .run) : ¬ s.faulted := by
  rintro ⟨r, hr⟩
  cases h.symm.trans hr

/-- An access whose continuation runs ends in FAULT by raising only. -/
theorem orOutOfBounds_raisedFrom {α : Type} {i : Instr} {s t : State} {r : Except Nat α} {k : α → State}
    (h : orOutOfBounds i s r k = .next t) (hk : ∀ a, (k a).mode = .run) (hf : t.faulted) :
    RaisedFrom s (some (encode i)) t := by
  obtain ⟨a, _, rfl⟩ | ⟨a, _, rfl⟩ := orOutOfBounds_next h
  · exact absurd hf (not_faulted_of_run (hk a))
  · exact ⟨_, _, rfl⟩

/-- An instruction ends in FAULT by raising only, and then records its own word. -/
theorem exec_raisedFrom {i : Instr} {s t : State} (h : exec i s = .next t) (hf : t.faulted) :
    RaisedFrom s (some (encode i)) t := by
  cases i with
  | ret =>
    obtain ⟨_, rfl⟩ | ⟨_, rfl⟩ := exec_ret_next h
    · exact absurd hf (not_faulted_of_run rfl)
    · exact ⟨_, _, rfl⟩
  | call nnn =>
    obtain ⟨_, rfl⟩ | ⟨_, rfl⟩ := exec_call_next h
    · exact absurd hf (not_faulted_of_run rfl)
    · exact ⟨_, _, rfl⟩
  | ldB _ | ldStore _ | drw _ _ _ => exact orOutOfBounds_raisedFrom h (fun _ => rfl) hf
  | ldLoad _ => exact orOutOfBounds_raisedFrom h (fun bs => setRegsFrom_mode s.afterFetch 0 bs) hf
  | ldVxK _ =>
    cases h
    obtain ⟨_, hr⟩ := hf
    cases hr
  | _ => cases h; exact absurd hf (not_faulted_of_run rfl)

/-- A cycle ends in FAULT by raising only: in the fetch, with the fetch's address and no word, or after it, with the
word the fetch read. -/
theorem cycle_raisedFrom {s t : State} (h : cycle s = .next t) (hf : t.faulted) :
    (∃ a, fetchWord s.mem s.pc.toNat = .error a ∧ t = raise .outOfBoundsAccess none (some a) s) ∨
    (∃ w, fetchWord s.mem s.pc.toNat = .ok w ∧ RaisedFrom s (some w) t) := by
  obtain ⟨a, hfetch, he⟩ | ⟨w, hfetch, _, he⟩ | ⟨w, i, hfetch, hd, he⟩ := cycle_cases s
  · cases he.symm.trans h
    exact .inl ⟨a, hfetch, rfl⟩
  · cases he.symm.trans h
    exact .inr ⟨w, hfetch, _, _, rfl⟩
  · obtain ⟨hw, _⟩ := encode_of_decodeWord hd
    exact .inr ⟨w, hfetch, hw ▸ exec_raisedFrom (he.symm.trans h) hf⟩

/-- Settles O8: the record is the one the raise wrote, and its shape is what every cycle leaves. -/
theorem faultingStepChangesOnlyTheMode : Obligations.FaultingStepChangesOnlyTheMode := by
  intro s t r hc h hmode
  rw [performMove_step hc] at h
  have hshape : r.shape := cycle_recordInv h r hmode
  obtain ⟨a, hfetch, rfl⟩ | ⟨w, hfetch, kind, addr, rfl⟩ := cycle_raisedFrom h ⟨r, hmode⟩
  · cases hmode
    exact ⟨rfl, rfl, rfl, hshape, nofun, fun _ => ⟨a, hfetch, rfl⟩⟩
  · cases hmode
    refine ⟨rfl, rfl, rfl, hshape, fun w' hw => ?_, nofun⟩
    cases hw
    exact hfetch

/-! ### WAITKEY (R277) -/

theorem loadRom_mode_waitKey {b : List Byte} {s : State} {x : Reg} (h : (loadRom b s).mode = .waitKey x) :
    s.mode = .waitKey x := by
  unfold loadRom at h
  split at h
  · cases h
  · exact h

theorem keyDeliver_mode_ne_waitKey (k : Key) (s : State) (x : Reg) : (keyDeliver k s).mode ≠ .waitKey x := by
  cases hs : s.mode with
  | waitKey y => rw [keyDeliver_of_waitKey k hs]; nofun
  | init | run | fault _ => simp [keyDeliver, hs]

/-- No move but a step enters a wait. -/
theorem eq_step_of_enters_waitKey {m : HostMove} {s t : State} {x : Reg} (h : performMove m s = .next t)
    (ht : t.mode = .waitKey x) (hs : s.mode ≠ .waitKey x) : m = .step := by
  rw [performMove_enabled (enabled_of_performMove h)] at h
  cases m with
  | step => rfl
  | reset => cases h; cases ht
  | loadFont _ | tick | setKeys _ => cases h; exact absurd ht hs
  | loadRom _ => cases h; exact absurd (loadRom_mode_waitKey ht) hs
  | keyDeliver k => cases h; exact absurd ht (keyDeliver_mode_ne_waitKey k s x)

/-- A cycle that ends in a wait has fetched the FX0A of that wait. -/
theorem fetchWord_of_cycle_waitKey {s t : State} {x : Reg} (h : cycle s = .next t) (ht : t.mode = .waitKey x) :
    fetchWord s.mem s.pc.toNat = .ok (encode (.ldVxK x)) := by
  obtain ⟨t', ht', hmode⟩ := cycle_leavesMode s
  cases ht'.symm.trans h
  obtain hrun | ⟨y, hwait, hfetch⟩ | ⟨r, hfault⟩ := hmode
  · cases hrun.symm.trans ht
  · cases hwait.symm.trans ht
    exact hfetch
  · cases hfault.symm.trans ht

/-- Everything a host move can do in a wait. -/
theorem performMove_waitKey_next {m : HostMove} {s t : State} {x : Reg} (hs : s.mode = .waitKey x)
    (h : performMove m s = .next t) :
    (∃ k, m = .keyDeliver k ∧ t.mode = .run) ∨ (m = .reset ∧ t.mode = .init) ∨ (m = .tick ∧ t = tick s) ∨
    ∃ f, t = setKeys f s := by
  have he := enabled_of_performMove h
  rw [performMove_enabled he] at h
  rw [hs] at he
  cases m with
  | keyDeliver k => cases h; exact .inl ⟨k, rfl, by rw [keyDeliver_of_waitKey k hs]⟩
  | reset => cases h; exact .inr (.inl ⟨rfl, rfl⟩)
  | tick => cases h; exact .inr (.inr (.inl ⟨rfl, rfl⟩))
  | setKeys f => cases h; exact .inr (.inr (.inr ⟨f, rfl⟩))
  | loadFont _ | loadRom _ | step => cases he

/-- Settles O53: only a step enters, by the cycle's FX0A; a tick and the setting of the flags keep the wait. -/
theorem waitIsEnteredByKeyInstructionOnly : Obligations.WaitIsEnteredByKeyInstructionOnly := by
  intro m s t x h
  refine ⟨fun ht hs => ?_, fun hs => ?_⟩
  · obtain rfl := eq_step_of_enters_waitKey h ht hs
    rw [performMove_enabled (enabled_of_performMove h)] at h
    exact ⟨rfl, _, fetchWord_of_cycle_waitKey h ht, indexWord_toNat x (by decide)⟩
  · obtain hdeliver | hreset | ⟨rfl, rfl⟩ | ⟨f, rfl⟩ := performMove_waitKey_next hs h
    · exact .inl hdeliver
    · exact .inr (.inl hreset)
    · exact .inr (.inr ⟨hs, rfl, rfl, rfl, rfl, rfl, rfl, rfl, .inr rfl⟩)
    · exact .inr (.inr ⟨hs, rfl, rfl, rfl, rfl, rfl, rfl, rfl, .inl ⟨rfl, rfl⟩⟩)

/-! ### FAULT (R263, R264) -/

theorem step_of_fault {s : State} {r : FaultRec} (h : s.schedule = []) (hm : s.mode = .fault r) :
    step s = .fault (.terminal r) := by
  simp only [step, h, executeCall, hm]

/-- FAULT enables a reset and the setting of the key flags, and no other move. -/
theorem enabled_fault_eq_false {m : HostMove} (r : FaultRec) (hreset : m ≠ .reset) (hkeys : ∀ f, m ≠ .setKeys f) :
    enabled (.fault r) m = false := by
  cases m with
  | reset => exact absurd rfl hreset
  | setKeys f => exact absurd rfl (hkeys f)
  | loadFont _ | loadRom _ | step | tick | keyDeliver _ => rfl

/-- Settles O9: the call of `Execute()` answers the outcome fault, and the mode enables two moves only. -/
theorem faultModeIsTerminal : Obligations.FaultModeIsTerminal := by
  intro s r hs
  refine ⟨fun hsched t => ?_, fun m hreset hkeys => ?_, fun f => ?_, resetMove s, ?_, rfl⟩
  · rw [step_of_fault hsched hs]
    nofun
  · exact performMove_ne_next (by rw [hs]; exact enabled_fault_eq_false r hreset hkeys)
  · exact performMove_enabled (by rw [hs]; rfl)
  · exact performMove_enabled (by rw [hs]; rfl)

/-! ### The tick (R269) -/

/-- A timer counts down as a natural number does, and stays at zero. -/
theorem countDown_toNat (b : Byte) : (countDown b).toNat = b.toNat - 1 := by
  unfold countDown
  split
  · bv_omega
  · omega

theorem enabled_tick {m : Mode} (h : ∀ r, m ≠ .fault r) : enabled m .tick = true := by
  cases m with
  | fault r => exact absurd rfl (h r)
  | init | run | waitKey _ => rfl

/-- Settles O35: outside FAULT the tick is two countdowns, and FAULT does not enable it. -/
theorem tickCountsDownToZero : Obligations.TickCountsDownToZero := by
  intro s
  refine ⟨fun hs => ?_, fun ⟨r, hr⟩ => performMove_ne_next (by rw [hr]; rfl)⟩
  have hframe : Unchanged noReg [.dt, .st] s (tick s) :=
    ((Unchanged.refl s).withDt (.head _) (countDown s.dt)).withSt (.tail _ (.head _)) (countDown s.st)
  exact ⟨tick s, performMove_enabled (enabled_tick hs), countDown_toNat s.dt, countDown_toNat s.st, rfl, rfl,
    hframe⟩

end Sys2Proof.Machine
end

section
/-! PROOF. Reset and the loaders (70_reset_and_hazards.md R300 to R304): the modes that enable them, what a loader writes
and leaves, and the order of the two. -/

namespace Sys2Proof.Machine

open Sys2Proof

/-! ### Reset in every mode (R300) -/

/-- Settles O43: every mode enables the move, and it takes the host's flags and moves from the state before it. -/
theorem resetIsEnabledInEveryMode : Obligations.ResetIsEnabledInEveryMode :=
  fun s => ⟨resetMove s, performMove_reset s, rfl, rfl, rfl⟩

/-! ### Blocks of bytes in memory -/

theorem Memory.read_writeBytes_inside (m : Memory) (a : Nat) {bs : List Byte} {j : Nat} (h : j < bs.length) :
    (m.writeBytes a bs).read (a + j) = bs[j] := by
  rw [Memory.read_writeBytes, if_pos (Nat.le_add_right a j), Nat.add_sub_cancel_left, List.getElem?_eq_getElem h,
    Option.getD_some]

theorem Memory.read_writeBytes_outside (m : Memory) {a b : Nat} {bs : List Byte} (h : b < a ∨ a + bs.length ≤ b) :
    (m.writeBytes a bs).read b = m.read b := by
  rw [Memory.read_writeBytes]
  split
  · rw [List.getElem?_eq_none (by omega), Option.getD_none]
  · rfl

/-- Two blocks that do not overlap may be written in either order: a byte of one block is outside the other, and
canonical memories that read alike are equal. -/
theorem Memory.writeBytes_comm {m : Memory} {a b : Nat} {bs cs : List Byte} (hm : m.wf = true)
    (hab : a + bs.length ≤ b) (hb : b + cs.length ≤ Config.memSize) :
    (m.writeBytes a bs).writeBytes b cs = (m.writeBytes b cs).writeBytes a bs := by
  have ha : a + bs.length ≤ Config.memSize := by omega
  refine Memory.ext_read (Memory.wf_writeBytes cs (Memory.wf_writeBytes bs hm ha) hb)
    (Memory.wf_writeBytes bs (Memory.wf_writeBytes cs hm hb) ha) fun d => ?_
  by_cases hd : d < b
  · have hcs : ∀ m' : Memory, (m'.writeBytes b cs).read d = m'.read d := fun m' =>
      m'.read_writeBytes_outside (.inl hd)
    simp only [hcs, Memory.read_writeBytes]
  · have hbs : ∀ m' : Memory, (m'.writeBytes a bs).read d = m'.read d := fun m' =>
      m'.read_writeBytes_outside (.inr (by omega))
    simp only [hbs, Memory.read_writeBytes]

/-! ### One loader (R302, R303) -/

theorem performMove_loadFont {s : State} (b : Vector Byte 80) (hs : s.mode = .init) :
    performMove (.loadFont b) s = .next (loadFont b s) :=
  performMove_enabled (by rw [hs]; rfl)

theorem performMove_loadRom {s : State} (b : List Byte) (hs : s.mode = .init) :
    performMove (.loadRom b) s = .next (loadRom b s) :=
  performMove_enabled (by rw [hs]; rfl)

theorem loadRom_of_le {b : List Byte} (s : State) (h : b.length ≤ 3584) :
    loadRom b s = { s with mem := s.mem.writeBytes 0x200 b } :=
  if_neg (Nat.not_lt.mpr h)

theorem loadRom_of_gt {b : List Byte} (s : State) (h : 3584 < b.length) :
    loadRom b s = { s with mode := .fault { kind := .romLoadError, pc := none, word := none, addr := none } } :=
  if_pos h

/-- Settles O44: the 80 bytes are one block at address 0. -/
theorem loadFontWritesEightyBytes : Obligations.LoadFontWritesEightyBytes := by
  intro b s hs
  refine ⟨loadFont b s, performMove_loadFont b hs, fun j => ?_, fun a ha => ?_, hs, rfl,
    (Unchanged.refl s).withMem (.head _) _⟩
  · have hj := s.mem.read_writeBytes_inside 0 (bs := b.toList) (j := j.val) (by simp)
    simpa [loadFont] using hj
  · exact s.mem.read_writeBytes_outside (.inr (by simpa using ha))

/-- Settles O45: an image that fits is one block at 0x200; for a longer one the move only enters `FAULT`. -/
theorem loadRomIsAllOrNothing : Obligations.LoadRomIsAllOrNothing := by
  intro b s hs
  refine ⟨fun hle => ?_, fun hgt => ?_⟩
  · refine ⟨{ s with mem := s.mem.writeBytes 0x200 b }, ?_, fun j hj => s.mem.read_writeBytes_inside 0x200 hj,
      fun a ha => s.mem.read_writeBytes_outside ha, hs, rfl, (Unchanged.refl s).withMem (.head _) _⟩
    rw [performMove_loadRom b hs, loadRom_of_le s hle]
  · rw [performMove_loadRom b hs, loadRom_of_gt s hgt]

/-! ### Both loaders (R304) -/

theorem runMoves_pair {m m' : HostMove} {s s' t : State} (h : performMove m s = .next s')
    (h' : performMove m' s' = .next t) : runMoves [m, m'] s = .next t := by
  simp only [runMoves, h, h']

/-- A ROM that fits ends below `MEM_SIZE` and starts above the font's 80 bytes. -/
theorem loadRom_loadFont_comm {font : Vector Byte 80} {rom : List Byte} {s : State} (hm : s.memInv)
    (hr : rom.length ≤ 3584) : loadRom rom (loadFont font s) = loadFont font (loadRom rom s) := by
  have hmem : (s.mem.writeBytes 0 font.toList).writeBytes 0x200 rom =
      (s.mem.writeBytes 0x200 rom).writeBytes 0 font.toList :=
    Memory.writeBytes_comm hm (by simp) (by simp only [Config.memSize]; omega)
  rw [loadRom_of_le _ hr, loadRom_of_le _ hr]
  simp only [loadFont, hmem]

/-- Settles O46: both loaders keep `INIT`, and the blocks they write do not overlap. -/
theorem loaderOrderDoesNotMatter : Obligations.LoaderOrderDoesNotMatter := by
  intro font rom s hm hs hr
  have hmode : (loadRom rom s).mode = .init := by rw [loadRom_of_le s hr]; exact hs
  refine ⟨loadRom rom (loadFont font s), ?_, ?_⟩
  · exact runMoves_pair (performMove_loadFont font hs) (performMove_loadRom rom hs)
  · rw [loadRom_loadFont_comm hm hr]
    exact runMoves_pair (performMove_loadRom rom hs) (performMove_loadFont font hmode)

end Sys2Proof.Machine
end
